-- ==== Sys2Proof/Word.lean ====
section
/-! DEFINITION. The word types of the block: the widths of spec/00_scope.md R10. -/

namespace Sys2Proof

/-- A host command word, STATUS or ERRWORD: 32 bits (R10, R26, R27, R70). -/
abbrev Word := BitVec 32

/-- A framebuffer byte, a wire byte or a bus transfer: 8 bits (R10). -/
abbrev Byte := BitVec 8

/-- Half of a framebuffer byte, the operand width of NIBBLE (R120). -/
abbrev Nibble := BitVec 4

end Sys2Proof
end

