-- ==== Sys2Proof/Config.lean ====
section
/-! DEFINITION. The constants of the block (spec/00_scope.md R8), its build parameters (R9), and the free values: what the
spec leaves unspecified or OPEN, as constants without a body. -/

namespace Sys2Proof

/-- PANEL_COLUMNS (R8). -/
def panelColumns : Nat := 384

/-- PANEL_BANDS (R8). -/
def panelBands : Nat := 21

/-- FB_BYTES = PANEL_COLUMNS * PANEL_BANDS = 8064 (R8). -/
def fbBytes : Nat := panelColumns * panelBands

/-- WIRE_ROWS (R8): the number of column pairs, and the rows of the window. -/
def wireRows : Nat := 192

/-- WIRE_COLGROUPS (R8). -/
def wireColGroups : Nat := 14

/-- WIRE_BYTES_PER_GROUP (R8). -/
def wireBytesPerGroup : Nat := 3

/-- WIRE_BYTES = 192 * 14 * 3 = 8064 (R8). -/
def wireBytes : Nat := wireRows * wireColGroups * wireBytesPerGroup

/-- One record of INIT_TABLE: opcode byte, data bytes, post-delay in ms (R151). -/
structure InitRecord where
  op : Byte
  data : List Byte
  delay : Nat
deriving DecidableEq, Repr, Inhabited

/-- The wire opcode bytes that are parameters (R9, R82). -/
structure WireOps where
  caset : Byte
  raset : Byte
  ramwr : Byte
  slpout : Byte
  dispon : Byte
  madctl : Byte
  dfs : Byte
deriving DecidableEq, Repr, Inhabited

/-- The build parameters of R9. They are fixed when the block is built; no command and no port writes them (R28). -/
structure Config where
  /-- `W`, LOGICAL_WIDTH. -/
  width : Nat
  /-- `H`, LOGICAL_HEIGHT. -/
  height : Nat
  /-- `INIT_TABLE`. -/
  initTable : List InitRecord
  /-- The OP_ bytes. -/
  ops : WireOps
  /-- `WIN_COL_DATA`. -/
  winColData : List Byte
  /-- `WIN_ROW_DATA`. -/
  winRowData : List Byte
  /-- `T_RST_H1`, ms. -/
  tRstH1 : Nat
  /-- `T_RST_L`, ms. -/
  tRstL : Nat
  /-- `T_RST_H2`, ms. -/
  tRstH2 : Nat
deriving DecidableEq, Repr, Inhabited

/-- The levels of the command/data line (R13, R31). -/
inductive DC where
  | cmd
  | data
deriving DecidableEq, Repr, Inhabited

/-- FREE VALUE (R35, D10, U1; log 3): the byte a framebuffer offset holds after the n-th block power-on reset while nothing
has written it. -/
opaque Config.powerOnByte : Nat → Nat → Byte

/-- FREE VALUE (R35, U10; log 9): the command/data line after the n-th block power-on reset, until the first MODE. -/
opaque Config.powerOnDc : Nat → DC

/-- OPEN parameter T_RST_H1 (R9, D22; log 5). -/
opaque Config.openTRstH1 : Nat

/-- OPEN parameter T_RST_L (R9, D22; log 5). -/
opaque Config.openTRstL : Nat

/-- OPEN parameter T_RST_H2 (R9, D22; log 5). -/
opaque Config.openTRstH2 : Nat

end Sys2Proof
end

