-- ==== Sys2Proof/Machine/Constraints.lean ====
section
/-! DEFINITION. The build-time check of the parameters: the constraints of R9 on W and H, of R151 on INIT_TABLE and of R161 on
the window data. A configuration that fails it is refused and not run (R151, R252). Then the parameters of a build for which
nothing else is given. -/

namespace Sys2Proof

/-- The record holds after it is sent (R151). -/
def InitRecord.delayed (r : InitRecord) : Bool := decide (0 < r.delay)

/-- R151 (a): there is an OP_SLPOUT record, and the first one has `delay > 0`. -/
def slpoutOk (ops : WireOps) (t : List InitRecord) : Bool :=
  match t.find? (fun r => r.op == ops.slpout) with
  | some r => r.delayed
  | none => false

/-- R151 (b): an OP_DISPON record has `delay > 0`, and the first OP_DISPON record comes after the first OP_SLPOUT record
(how it is read: DESIGN CHOICE, log 8). -/
def disponOk (ops : WireOps) (t : List InitRecord) : Bool :=
  t.any (fun r => r.op == ops.dispon && r.delayed) &&
    decide (t.findIdx (fun r => r.op == ops.slpout) < t.findIdx (fun r => r.op == ops.dispon))

/-- R151 (c): exactly two records have `delay > 0`. With (a) and (b), which name two different records with a delay, those
are the two (how it is read: DESIGN CHOICE, log 8). -/
def delaysOk (t : List InitRecord) : Bool := decide ((t.filter InitRecord.delayed).length = 2)

/-- R151 (d): there are an OP_MADCTL record and an OP_DFS record. -/
def formatOk (ops : WireOps) (t : List InitRecord) : Bool :=
  t.any (fun r => r.op == ops.madctl) && t.any (fun r => r.op == ops.dfs)

/-- INIT_TABLE meets R151 (a) to (d), checked against the given opcode bytes. -/
def initTableOk (ops : WireOps) (t : List InitRecord) : Bool :=
  slpoutOk ops t && disponOk ops t && delaysOk t && formatOk ops t

/-- The two bytes describe `n` positions as an inclusive (start, end) pair (R161; PRESUMED, the spec marks the encoding as
general knowledge, G7; log 7). -/
def rangeOk (n : Nat) (d : List Byte) : Bool :=
  match d with
  | [first, last] => decide (last.toNat + 1 = first.toNat + n)
  | _ => false

/-- The window is 14 column-groups wide and 192 rows high (R161). -/
def windowOk (col row : List Byte) : Bool := rangeOk wireColGroups col && rangeOk wireRows row

/-- 1 ≤ W ≤ 384 and 1 ≤ H ≤ 168 (R9). -/
def sizeOk (w h : Nat) : Bool :=
  decide (1 ≤ w) && decide (w ≤ panelColumns) && decide (1 ≤ h) && decide (h ≤ panelBands * 8)

/-- The whole check of a configuration. -/
def Config.accepts (c : Config) : Bool :=
  sizeOk c.width c.height && initTableOk c.ops c.initTable && windowOk c.winColData c.winRowData

/-- The default opcode bytes of R9 (PRESUMED: the spec marks them as general knowledge, D19, G5; log 6). -/
def WireOps.defaults : WireOps :=
  { caset := 0x2A, raset := 0x2B, ramwr := 0x2C, slpout := 0x11, dispon := 0x29, madctl := 0x36, dfs := 0x3A }

/-- A table that meets R151. It only witnesses that such tables exist, and nothing can see its bytes through
`Config.openTable` (log 4). -/
def witnessTable : List InitRecord :=
  [⟨0x11, [], 1⟩, ⟨0x36, [0], 0⟩, ⟨0x3A, [0], 0⟩, ⟨0x29, [], 1⟩]

theorem witnessTable_ok : initTableOk WireOps.defaults witnessTable = true := by decide

/-- OPEN parameter INIT_TABLE (R9, R151, D21; log 4): some table that meets the constraints, and nothing more is known of
it. -/
opaque Config.openTable [Inhabited { t : List InitRecord // initTableOk WireOps.defaults t = true }] :
    { t : List InitRecord // initTableOk WireOps.defaults t = true }

/-- The INIT_TABLE of a build to which none is given: a free value. -/
def Config.freeTable : { t : List InitRecord // initTableOk WireOps.defaults t = true } :=
  @Config.openTable ⟨⟨witnessTable, witnessTable_ok⟩⟩

/-- The defaults of R9, with free values for the parameters R9 leaves OPEN (logs 4, 5, 6). -/
def Config.defaults : Config :=
  { width := 384
    height := 168
    initTable := Config.freeTable.1
    ops := WireOps.defaults
    winColData := [0x17, 0x24]
    winRowData := [0x00, 0xBF]
    tRstH1 := Config.openTRstH1
    tRstL := Config.openTRstL
    tRstH2 := Config.openTRstH2 }

/-- The default configuration passes the check, whatever the free values are. -/
theorem Config.defaults_accepted : Config.defaults.accepts = true := by
  have ht : initTableOk WireOps.defaults Config.freeTable.1 = true := Config.freeTable.2
  simp only [Config.accepts, Config.defaults, ht]
  decide

end Sys2Proof
end

