-- ==== Sys2Proof/Machine/State.lean ====
section
/-! DEFINITION. The machine's state (spec/10_state.md R21), its stops, and the state after block power-on reset (R35). -/

namespace Sys2Proof.Machine

/-- A bus event (R13). -/
inductive BusEvent where
  /-- One chip-select transaction; the byte list is non-empty (R13, R141). -/
  | frame (dc : DC) (bytes : List Byte)
  /-- The reset line is driven. -/
  | rst (level : Bool)
  /-- A hold of at least `ms` milliseconds. -/
  | wait (ms : Nat)
deriving DecidableEq, Repr

/-- A primitive request to the transport (R31). -/
inductive Prim where
  | sel (on : Bool)
  | mode (dc : DC)
  | xfer (b : Byte)
  | rst (level : Bool)
  | wait (ms : Nat)
deriving DecidableEq, Repr

/-- The protocol state (R25). -/
inductive PState where
  | reset
  | initialized
  | ready
deriving DecidableEq, Repr

/-- The refusal causes (R200). -/
inductive Cause where
  | illegalCommand
  | sequenceViolation
  | notInitialized
deriving DecidableEq, Repr

/-- `fin`: the state update a command applies when its event list is exhausted (R22). -/
inductive Finish where
  /-- REFRESH: no state change (R170). -/
  | nothing
  /-- RESET: PULSED <- 1 (R145). -/
  | setPulsed
  /-- INIT: PSTATE <- READY (R150). -/
  | setReady
deriving DecidableEq, Repr

/-- The sequencer position (R22). In `run evs k todo fin`, `evs`, `k` and `fin` are the spec's; `todo` is the primitives of
event `k` that the transport has not acknowledged yet, because each primitive completes by itself (R31, R143; log 1). -/
inductive Seq where
  | idle
  | run (evs : List BusEvent) (k : Nat) (todo : List Prim) (fin : Finish)
deriving DecidableEq, Repr

/-- What the outside world does at the start of one step (log 2). -/
inductive Outside where
  /-- Nothing changes at the ports. -/
  | quiet
  /-- The host drives the command port: the first word of `ws` stands on `cmd_word` with `cmd_valid = 1`, the next follows
  when it is accepted, and the empty list is `cmd_valid = 0` (R30, R250). -/
  | offer (ws : List Word)
  /-- From now on the transport acknowledges (or does not) (R31, R143). -/
  | ackLevel (on : Bool)
  /-- The transport ends the outstanding WAIT before its hold has elapsed (R251). -/
  | shortHold
  /-- Block power-on reset (R240, R241). -/
  | powerOn
deriving DecidableEq, Repr

/-- The framebuffer's written bytes: (offset, byte) pairs with strictly rising offsets below 8064. An offset that is not
listed has not been written since block power-on (R24, R35; log 3). -/
abbrev Memory := List Host.Cell

/-- Why a step stops with a fault. -/
inductive Fault where
  /-- Raised by SETPX for a framebuffer offset outside 0 to 8063, which R50 says does not exist. Only a configuration that
  breaks R9 reaches it. SAFE: the model stops (log 17). -/
  | fbOffset (a : Nat)
deriving DecidableEq, Repr

/-- Why a step is refused. -/
inductive Refusal where
  /-- Raised by exec for an instruction that has no meaning yet. No arm raises it. SAFE. -/
  | notModelled (mnemonic : String)
  /-- Raised by step for a configuration that failed the build-time check: a model must refuse it and not run it (R151, R252).
  SAFE (log 8). -/
  | badConfiguration
  /-- Raised by step when the transport shortens a hold: the model has no meaning for a shortened run (R251, U12).
  SAFE (log 16). -/
  | holdShortened
deriving DecidableEq, Repr

/-- The state of the block (R21, R31, R35), its parameters (R9), and what the outside world drives at its ports. -/
@[ext]
structure State where
  /-- The build parameters (R9); nothing writes them (R28). -/
  cfg : Config
  /-- The verdict of the build-time check on `cfg` (R151, R252; log 8). -/
  cfgAccepted : Bool
  /-- FB (R24). -/
  fb : Memory
  /-- PSTATE (R25). -/
  pstate : PState
  /-- PULSED (R29). -/
  pulsed : Bool
  /-- seq (R22); BUSY is `State.busy`. -/
  seq : Seq
  /-- STATUS.ERR_ILLEGAL (R26). -/
  errIllegal : Bool
  /-- STATUS.ERR_SEQ (R26). -/
  errSeq : Bool
  /-- STATUS.ERR_NOT_INIT (R26). -/
  errNotInit : Bool
  /-- STATUS.LAST_CAUSE; none is code 0 (R26, R200). -/
  lastCause : Option Cause
  /-- ERRWORD (R27). -/
  errword : Word
  /-- RST_LEVEL (R31, R142). -/
  rstLevel : Bool
  /-- Chip select is asserted (R31, R35). -/
  csAsserted : Bool
  /-- The command/data line (R31, R35). -/
  dc : DC
  /-- The bus trace: the completed events since block power-on, oldest first (R13, R241). -/
  trace : List BusEvent
  /-- Input: the words the host offers, the head on `cmd_word` (R30; log 2). -/
  stream : List Word
  /-- Input: the transport acknowledges the requested primitive (R31; log 2). -/
  ack : Bool
  /-- Input: what the outside world will do, one entry a step (log 2). -/
  script : List Outside
  /-- The model's own: how many block power-on resets came before; it selects the free values (log 3). -/
  powerOns : Nat
deriving DecidableEq, Repr

/-- The values of R35 after the n-th block power-on reset of a block with parameters `c`; `accepted`, `stream`, `ack` and
`script` are the build's and the outside world's. -/
def State.afterPowerOn (c : Config) (accepted : Bool) (n : Nat) (stream : List Word) (ack : Bool) (script : List Outside) :
    State :=
  { cfg := c
    cfgAccepted := accepted
    fb := []
    pstate := .reset
    pulsed := false
    seq := .idle
    errIllegal := false
    errSeq := false
    errNotInit := false
    lastCause := none
    errword := 0
    rstLevel := true
    csAsserted := false
    dc := Config.powerOnDc n
    trace := []
    stream := stream
    ack := ack
    script := script
    powerOns := n }

/-- The block right after power-on, built with the parameters `c`: the build-time check decides whether it runs
(R151, R252). -/
def State.build (c : Config) : State := State.afterPowerOn c c.accepts 0 [] true []

/-- The machine right after reset (R35, R240): the default parameters, which the check accepts whatever the free values are
(`Config.defaults_accepted`), an empty command port and a transport that acknowledges (logs 2 to 8). -/
def State.reset : State := State.afterPowerOn Config.defaults true 0 [] true []

end Sys2Proof.Machine
end

