-- ==== Sys2Proof/Machine/Operands.lean ====
section
/-! DEFINITION. The operands of SETPX: the range test, the effective address and the bit (spec/40_framebuffer.md R100 to
R102), and how a host encodes a signed coordinate (spec/30_encoding.md R75). -/

namespace Sys2Proof.Machine

/-- The pixel lies inside the logical bounds (R100). -/
def inRange (c : Config) (x y : Nat) : Bool := decide (x < c.width) && decide (y < c.height)

/-- The effective address `(Y >> 3) * 384 + X` (R101). -/
def pixelOffset (x y : Nat) : Nat := (y >>> 3) * panelColumns + x

/-- The bit `Y & 7` (R101). -/
def pixelBit (y : Nat) : Nat := y &&& 7

/-- `1 << bit`, an 8-bit value with exactly one bit set (R102). -/
def pixelMask (y : Nat) : Byte := 1#8 <<< pixelBit y

/-- The new byte: OR sets the bit, AND with the 8-bit complement clears it (R100, R102). -/
def setPixelByte (old : Byte) (y : Nat) (on : Bool) : Byte :=
  if on then old ||| pixelMask y else old &&& ~~~(pixelMask y)

/-- The field value a host places in X or Y for the signed coordinate `c`, so that it is out of range exactly when `c` is
(R75). -/
def hostCoord (c : Int) : Nat :=
  if 0 ≤ c ∧ c ≤ 4095 then c.toNat
  else if -2048 ≤ c ∧ c ≤ -1 then (4096 + c).toNat
  else 0xFFF

/-- `width` of the canvas contract (R107). -/
def State.width (s : State) : Nat := s.cfg.width

/-- `height` of the canvas contract (R107). -/
def State.height (s : State) : Nat := s.cfg.height

end Sys2Proof.Machine
end

