-- ==== Sys2Proof/Syntax.lean ====
section
/-! DEFINITION. The host commands (spec/30_encoding.md R70 to R73, spec/opcode_table.json) and the pseudo-instructions
that expand to them (R80). -/

namespace Sys2Proof

/-- The five host commands, one constructor per row of the opcode table. The coordinates are unsigned numbers (R74, R102);
`Instr.wf` says that they fit the 12-bit fields. -/
inductive Instr where
  /-- SETPX x, y, on: set (on) or clear one pixel (R100). -/
  | setpx (x y : Nat) (on : Bool)
  /-- CLEAR: zero-fill the framebuffer (R105). -/
  | clear
  /-- RESET: pulse the panel's reset line (R145). -/
  | reset
  /-- INIT: send the initialization sequence (R150). -/
  | init
  /-- REFRESH: convert the framebuffer and transmit one frame (R170). -/
  | refresh
deriving DecidableEq, Repr

/-- The pseudo-instructions of R80. -/
inductive Pseudo where
  | pxon (x y : Nat)
  | pxoff (x y : Nat)
  | bringUp
  | showFrame
deriving DecidableEq, Repr

end Sys2Proof
end

