-- ==== Sys2Proof/WellFormed.lean ====
section
/-! DEFINITION. Which instruction terms have an encoding: the operand fields of format P are 12 bits wide (R71). -/

namespace Sys2Proof

/-- The operands fit their fields: X and Y are 12-bit unsigned (R71, R74). Format Z has no operands (R72). -/
def Instr.wf : Instr → Bool
  | .setpx x y _ => decide (x < 4096) && decide (y < 4096)
  | .clear => true
  | .reset => true
  | .init => true
  | .refresh => true

/-- The operands of a pseudo-instruction fit the fields of its expansion (R79, R80). -/
def Pseudo.wf : Pseudo → Bool
  | .pxon x y => decide (x < 4096) && decide (y < 4096)
  | .pxoff x y => decide (x < 4096) && decide (y < 4096)
  | .bringUp => true
  | .showFrame => true

end Sys2Proof
end

