-- ==== Sys2Proof/Decode.lean ====
section
/-! DEFINITION. The command encoding: the opcode map (spec/30_encoding.md R73), the total decoder (R77), and the encoder
(R71, R72, R79) written from the same tables. -/

namespace Sys2Proof

/-- Why a word is illegal (R76). -/
inductive Illegal where
  /-- OP is 0x0 or 0x6 to 0xF. -/
  | opcode
  /-- OP is a command's, and a reserved bit is set. -/
  | reservedBits
deriving DecidableEq, Repr

/-- What the decoder answers: a command, or ILLEGAL with its reason (R77). -/
inductive Decoded where
  | command (i : Instr)
  | illegal (why : Illegal)
deriving DecidableEq, Repr

/-- `w[31:28]`, the field OP (R70). -/
def opField (w : Word) : BitVec 4 := w.extractLsb' 28 4

/-- `w[27:25]`, the field RSV of format P (R71). -/
def rsvField (w : Word) : BitVec 3 := w.extractLsb' 25 3

/-- `w[27:0]`, the reserved bits of format Z (R72). -/
def zRsvField (w : Word) : BitVec 28 := w.extractLsb' 0 28

/-- `w[24]`, the field ON (R74). -/
def onField (w : Word) : Bool := w.getLsbD 24

/-- `zext(w[23:12])`, the field X (R74). -/
def xField (w : Word) : Nat := (w.extractLsb' 12 12).toNat

/-- `zext(w[11:0])`, the field Y (R74). -/
def yField (w : Word) : Nat := (w.extractLsb' 0 12).toNat

/-- A format Z command: `i` when every reserved bit is zero (R72, R77). -/
def decodeZ (w : Word) (i : Instr) : Decoded :=
  if zRsvField w = 0 then .command i else .illegal .reservedBits

/-- A format P command (R71, R77). -/
def decodeP (w : Word) : Decoded :=
  if rsvField w = 0 then .command (.setpx (xField w) (yField w) (onField w)) else .illegal .reservedBits

/-- `decode(w)` of R77, total on every 32-bit word. -/
def decode (w : Word) : Decoded :=
  if opField w = 0x1#4 then decodeP w
  else if opField w = 0x2#4 then decodeZ w .clear
  else if opField w = 0x3#4 then decodeZ w .reset
  else if opField w = 0x4#4 then decodeZ w .init
  else if opField w = 0x5#4 then decodeZ w .refresh
  else .illegal .opcode

/-- The word of an instruction: formats P and Z bit by bit (R71, R72), OP from the opcode map (R73). Operands wider than
their fields are no well-formed instruction; their low bits are taken (log 21). -/
def encode : Instr → Word
  | .setpx x y on => 0x1#4 ++ 0#3 ++ BitVec.ofBool on ++ BitVec.ofNat 12 x ++ BitVec.ofNat 12 y
  | .clear => 0x2#4 ++ 0#28
  | .reset => 0x3#4 ++ 0#28
  | .init => 0x4#4 ++ 0#28
  | .refresh => 0x5#4 ++ 0#28

/-- One row of the opcode map (R73): a word selects the row when `w &&& mask = value`. -/
structure OpcodeRow where
  mnemonic : String
  value : Word
  mask : Word
deriving DecidableEq, Repr

/-- The opcode map of R73. -/
def opcodeRows : List OpcodeRow :=
  [⟨"SETPX", 0x10000000#32, 0xFE000000#32⟩,
   ⟨"CLEAR", 0x20000000#32, 0xFFFFFFFF#32⟩,
   ⟨"RESET", 0x30000000#32, 0xFFFFFFFF#32⟩,
   ⟨"INIT", 0x40000000#32, 0xFFFFFFFF#32⟩,
   ⟨"REFRESH", 0x50000000#32, 0xFFFFFFFF#32⟩]

/-- The word selects the row (R73). -/
def OpcodeRow.selects (r : OpcodeRow) (w : Word) : Bool := w &&& r.mask == r.value

/-- The mnemonic of an instruction as R73 spells it. -/
def Instr.mnemonic : Instr → String
  | .setpx _ _ _ => "SETPX"
  | .clear => "CLEAR"
  | .reset => "RESET"
  | .init => "INIT"
  | .refresh => "REFRESH"

/-- The instruction the decoder reads from a word, none where it is illegal. -/
def Decoded.toOption : Decoded → Option Instr
  | .command i => some i
  | .illegal _ => none

/-- The command word whose low `nbits` bits are `w` and whose other bits are 0. The word is one parallel value, so no byte
order applies (R54). -/
def tableWord (nbits w : Nat) : Word := BitVec.ofNat 32 (w % 2 ^ nbits)

/-- The instruction the decoder reads from an instruction whose bits are `w`, numbered as spec/opcode_table.json numbers
them. -/
def decodeTableWord (nbits w : Nat) : Option Instr := (decode (tableWord nbits w)).toOption

end Sys2Proof
end

