-- ==== Sys2Proof/Machine/Bus.lean ====
section
/-! DEFINITION. Bus events and primitives (spec/42_protocol_sequencer.md R140 to R144), the lines they drive, and the
electrical views of D18. -/

namespace Sys2Proof.Machine

/-- `hold(ms)` (R144). -/
def hold (ms : Nat) : List BusEvent := if 0 < ms then [.wait ms] else []

/-- `tx(op, data)`: one command frame, then one frame with all the data bytes (R144). -/
def tx (op : Byte) (data : List Byte) : List BusEvent :=
  .frame .cmd [op] :: (if data = [] then [] else [.frame .data data])

/-- The primitives of an event, in order (R141, R142). -/
def BusEvent.prims : BusEvent → List Prim
  | .frame dc bytes => .sel true :: .mode dc :: (bytes.map Prim.xfer ++ [.sel false])
  | .rst level => [.rst level]
  | .wait ms => [.wait ms]

/-- The primitives of event `k`, none past the end of the list. -/
def primsAt (evs : List BusEvent) (k : Nat) : List Prim :=
  match evs[k]? with
  | some e => e.prims
  | none => []

/-- What a completed primitive does to the lines the block drives (R31, R142; log 11). -/
def Prim.drive (p : Prim) (s : State) : State :=
  match p with
  | .sel on => { s with csAsserted := on }
  | .mode dc => { s with dc := dc }
  | .rst level => { s with rstLevel := level }
  | .xfer _ => s
  | .wait _ => s

/-- How many bytes an event transfers (R171, R261). -/
def BusEvent.byteCount : BusEvent → Nat
  | .frame _ bytes => bytes.length
  | .rst _ => 0
  | .wait _ => 0

/-- The level of the pin CSX, active low (D18; log 13). -/
def State.csxLevel (s : State) : Bool := !s.csAsserted

/-- The level of the pin D/CX, low for CMD and high for DATA (D18; log 13). -/
def State.dcxLevel (s : State) : Bool := decide (s.dc = .data)

/-- The bits of one byte on a serial transport, MSB first (R53, D18; log 13). -/
def serialBits (b : Byte) : List Bool :=
  [b.getLsbD 7, b.getLsbD 6, b.getLsbD 5, b.getLsbD 4, b.getLsbD 3, b.getLsbD 2, b.getLsbD 1, b.getLsbD 0]

end Sys2Proof.Machine
end

