-- ==== Sys2Proof/Machine/Flags.lean ====
section
/-! DEFINITION. The block's only flags: the fields of STATUS and how a refusal writes them (spec/10_state.md R26,
spec/60_exceptions.md R200). No command sets a condition code. -/

namespace Sys2Proof.Machine

/-- The code of a protocol state in STATUS[1:0] (R25). -/
def PState.code : PState → BitVec 2
  | .reset => 0
  | .initialized => 1
  | .ready => 2

/-- The code of a cause in STATUS[10:8] (R200). -/
def Cause.code : Cause → BitVec 3
  | .illegalCommand => 1
  | .sequenceViolation => 2
  | .notInitialized => 3

/-- LAST_CAUSE: 0 while no command has been refused (R26). -/
def causeCode : Option Cause → BitVec 3
  | none => 0
  | some c => c.code

/-- BUSY = 1 exactly when seq ≠ IDLE (R22). -/
def State.busy (s : State) : Bool :=
  match s.seq with
  | .idle => false
  | .run _ _ _ _ => true

/-- STATUS, from bit 31 down: reserved, LAST_CAUSE, reserved, ERR_NOT_INIT, ERR_SEQ, ERR_ILLEGAL, PULSED, BUSY, PSTATE
(R26). Reading it changes nothing. -/
def State.status (s : State) : Word :=
  0#21 ++ causeCode s.lastCause ++ 0#1 ++ BitVec.ofBool s.errNotInit ++ BitVec.ofBool s.errSeq
    ++ BitVec.ofBool s.errIllegal ++ BitVec.ofBool s.pulsed ++ BitVec.ofBool s.busy ++ s.pstate.code

/-- `STATUS.ERR_<cause> <- 1`: only the named sticky bit is set (R200, R205). -/
def State.setErr (c : Cause) (s : State) : State :=
  match c with
  | .illegalCommand => { s with errIllegal := true }
  | .sequenceViolation => { s with errSeq := true }
  | .notInitialized => { s with errNotInit := true }

/-- The sticky bit of a cause (R200). -/
def State.err (c : Cause) (s : State) : Bool :=
  match c with
  | .illegalCommand => s.errIllegal
  | .sequenceViolation => s.errSeq
  | .notInitialized => s.errNotInit

end Sys2Proof.Machine
end

