-- ==== Sys2Proof/Machine/Ops.lean ====
section
/-! DEFINITION. The shared operations: one framebuffer byte read and written (spec/20_memory.md R50, R55), the refusal of a
command (spec/60_exceptions.md R205, the block's only trap-like event; there is no return from it, R207), acceptance
(spec/10_state.md R22, R30), and block power-on reset (spec/70_reset_and_hazards.md R240). -/

namespace Sys2Proof.Machine

/-- What is listed at an offset: none is "not written since block power-on". -/
def Memory.lookup : Memory → Nat → Option Byte
  | [], _ => none
  | (k, v) :: rest, a => if k = a then some v else Memory.lookup rest a

/-- Write one byte, keeping the offsets strictly rising. -/
def Memory.insert : Memory → Nat → Byte → Memory
  | [], a, b => [(a, b)]
  | (k, v) :: rest, a, b =>
    if a < k then (a, b) :: (k, v) :: rest
    else if a = k then (a, b) :: rest
    else (k, v) :: Memory.insert rest a b

/-- Strictly rising offsets, all at least `lo` and below 8064. -/
def Memory.wfFrom : Nat → Memory → Bool
  | _, [] => true
  | lo, (k, _) :: rest => decide (lo ≤ k) && decide (k < fbBytes) && Memory.wfFrom (k + 1) rest

/-- The canonical form: strictly rising offsets inside the framebuffer. An unlisted offset has no value of its own, so no
entry can equal what an unlisted offset reads as (log 3). -/
def Memory.wf (m : Memory) : Bool := Memory.wfFrom 0 m

/-- What an offset holds while nothing has written it since block power-on: unspecified, a free value per byte (R35, D10,
U1; log 3). -/
def State.unwrittenByte (s : State) (a : Nat) : Byte := Config.powerOnByte s.powerOns a

/-- `FB[a]` (R12): the byte written last, or the unspecified power-on content. -/
def State.fbByte (s : State) (a : Nat) : Byte :=
  match s.fb.lookup a with
  | some b => b
  | none => s.unwrittenByte a

/-- `FB[a] <- v` (R12). -/
def State.fbWrite (s : State) (a : Nat) (v : Byte) : State := { s with fb := s.fb.insert a v }

/-- Every offset from 0 to 8063 with the byte 0x00. -/
def zeroCells : Memory := (List.range' 0 fbBytes).map fun a => (a, 0#8)

/-- `for a in 0 .. 8063: FB[a] <- 0x00` (R105). -/
def State.fbZero (s : State) : State := { s with fb := zeroCells }

/-- The pixel of column `x` and row `y` as FB holds it (R24, R52). A view for statements: the block has no read-back
(R107). -/
def State.pixel (s : State) (x y : Nat) : Bool := (s.fbByte ((y / 8) * panelColumns + x)).getLsbD (y % 8)

/-- `refuse(cause, w)`: the three writes of R205 and nothing else. -/
def refuse (c : Cause) (w : Word) (s : State) : State :=
  { s.setErr c with lastCause := some c, errword := w }

/-- `fin`, applied when the event list is exhausted (R22). -/
def Finish.apply (f : Finish) (s : State) : State :=
  match f with
  | .nothing => s
  | .setPulsed => { s with pulsed := true }
  | .setReady => { s with pstate := .ready }

/-- `seq <- RUN(evs, 0, fin)`; a command without events applies `fin` in its acceptance step and never makes BUSY observable
(R22, R204). -/
def startRun (evs : List BusEvent) (fin : Finish) (s : State) : State :=
  match evs with
  | [] => fin.apply s
  | _ :: _ => { s with seq := .run evs 0 (primsAt evs 0) fin }

/-- A command is accepted only in IDLE; while the block is busy the host holds it, and it is neither lost nor refused
(R22, R30; log 12). -/
def whenIdle (act : State → Host.Outcome State Fault Refusal) (s : State) : Host.Outcome State Fault Refusal :=
  match s.seq with
  | .idle => act s
  | .run _ _ _ _ => .next s

/-- Block power-on reset in any state: the values of R35, with an unfinished event list abandoned and chip select deasserted
(R240, R241). What is built in and what the outside world drives stays (log 12). -/
def powerOnReset (s : State) : State :=
  State.afterPowerOn s.cfg s.cfgAccepted (s.powerOns + 1) s.stream s.ack s.script

end Sys2Proof.Machine
end

