-- ==== Sys2Proof/Machine/Framebuffer.lean ====
section
/-! DEFINITION. The framebuffer commands (spec/40_framebuffer.md R100 to R105). Both act in their acceptance step, in every
PSTATE (R104), and emit no event. -/

namespace Sys2Proof.Machine

/-- The pixel write of SETPX: a silent no-op out of range, else one byte read, changed in one bit, and written (R100). -/
def setPixel (x y : Nat) (on : Bool) (s : State) : Host.Outcome State Fault Refusal :=
  if inRange s.cfg x y then
    if pixelOffset x y < fbBytes then
      .next (s.fbWrite (pixelOffset x y) (setPixelByte (s.fbByte (pixelOffset x y)) y on))
    else .fault (.fbOffset (pixelOffset x y))
  else .next s

/-- SETPX (R100). -/
def execSetpx (x y : Nat) (on : Bool) (s : State) : Host.Outcome State Fault Refusal :=
  whenIdle (setPixel x y on) s

/-- CLEAR (R105). -/
def execClear (s : State) : Host.Outcome State Fault Refusal :=
  whenIdle (fun s => .next s.fbZero) s

end Sys2Proof.Machine
end

