-- ==== Sys2Proof/Machine/PixelPacker.lean ====
section
/-! DEFINITION. pixel_packer: NIBBLE, PAIR and CONVERT (spec/41_pixel_packer.md R120 to R125). -/

namespace Sys2Proof.Machine

/-- NIBBLE(n1, n2): bit j of n1 goes to bit 7 - 2j, bit j of n2 to bit 6 - 2j (R120). -/
def nibble (n1 n2 : Nibble) : Byte :=
  BitVec.ofBool (n1.getLsbD 0) ++ BitVec.ofBool (n2.getLsbD 0)
    ++ BitVec.ofBool (n1.getLsbD 1) ++ BitVec.ofBool (n2.getLsbD 1)
    ++ BitVec.ofBool (n1.getLsbD 2) ++ BitVec.ofBool (n2.getLsbD 2)
    ++ BitVec.ofBool (n1.getLsbD 3) ++ BitVec.ofBool (n2.getLsbD 3)

/-- `b & 0xF` (R121). -/
def lowNibble (b : Byte) : Nibble := (b &&& 0x0F#8).setWidth 4

/-- `(b >> 4) & 0xF` (R121). -/
def highNibble (b : Byte) : Nibble := ((b >>> 4) &&& 0x0F#8).setWidth 4

/-- PAIR(b1, b2): the output byte of the low nibbles, then that of the high nibbles (R121). -/
def pair (b1 b2 : Byte) : List Byte :=
  [nibble (lowNibble b1) (lowNibble b2), nibble (highNibble b1) (highNibble b2)]

/-- The two wire bytes of columns `i`, `i + 1` in one band (R122). -/
def packBand (fb : Nat → Byte) (i band : Nat) : List Byte :=
  pair (fb (band * panelColumns + i)) (fb (band * panelColumns + i + 1))

/-- The 42 wire bytes of columns `i`, `i + 1`: 7 band-groups of 3 bands (R122). -/
def packColumns (fb : Nat → Byte) (i : Nat) : List Byte :=
  (List.range' 0 7).flatMap fun g => (List.range' 0 3).flatMap fun k => packBand fb i (3 * g + k)

/-- CONVERT over the framebuffer bytes `fb`: `i` runs over 0, 2, ..., 382 (R122). -/
def convertBytes (fb : Nat → Byte) : List Byte :=
  (List.range' 0 192 2).flatMap fun i => packColumns fb i

/-- CONVERT(FB), the WireBuffer: a value, not stored (R122, R123, R127). -/
def convert (s : State) : List Byte := convertBytes s.fbByte

/-- The wire byte index of pixel (x, y) (R125). -/
def wireIndex (x y : Nat) : Nat := (x >>> 1) * 42 + (y >>> 3) * 2 + ((y &&& 7) >>> 2)

/-- The bit of pixel (x, y) in its wire byte (R125). -/
def wireBit (x y : Nat) : Nat := 7 - 2 * ((y &&& 7) &&& 3) - (x &&& 1)

end Sys2Proof.Machine
end

