-- ==== Sys2Proof/Machine/Protocol.lean ====
section
/-! DEFINITION. The protocol commands: RESET, INIT, REFRESH, with SET_WINDOW and SEND_FRAME inside REFRESH
(spec/42_protocol_sequencer.md R145 to R171). A meaning is the acceptance step of R204: it checks the protocol state, then
refuses (R205) or starts the event list, which the sequencer walks. -/

namespace Sys2Proof.Machine

/-- evs_RESET (R145). -/
def resetEvents (c : Config) : List BusEvent :=
  [.rst true] ++ hold c.tRstH1 ++ [.rst false] ++ hold c.tRstL ++ [.rst true] ++ hold c.tRstH2

/-- The events of one record of INIT_TABLE (R150). -/
def InitRecord.events (r : InitRecord) : List BusEvent := tx r.op r.data ++ hold r.delay

/-- evs_INIT: INIT_TABLE flattened in order, no insertion and no omission (R150, R152). -/
def initEvents (c : Config) : List BusEvent := c.initTable.flatMap InitRecord.events

/-- SET_WINDOW_EVENTS: columns first (R160). -/
def setWindowEvents (c : Config) : List BusEvent :=
  tx c.ops.caset c.winColData ++ tx c.ops.raset c.winRowData

/-- SEND_FRAME_EVENTS(WB): the memory-write command, then one frame with all of WB (R165, R166). -/
def sendFrameEvents (c : Config) (wb : List Byte) : List BusEvent :=
  [.frame .cmd [c.ops.ramwr], .frame .data wb]

/-- evs of REFRESH for a converted frame (R170). -/
def refreshEvents (c : Config) (wb : List Byte) : List BusEvent := setWindowEvents c ++ sendFrameEvents c wb

/-- RESET at acceptance (R145, R146). A refusal's ERRWORD is the command's encoding, which is the offered word (log 19). -/
def acceptReset (s : State) : Host.Outcome State Fault Refusal :=
  if s.pstate = .reset then .next (startRun (resetEvents s.cfg) .setPulsed s)
  else .next (refuse .sequenceViolation (encode .reset) s)

/-- INIT at acceptance: PSTATE is INITIALIZED from here on (R150). -/
def acceptInit (s : State) : Host.Outcome State Fault Refusal :=
  if s.pstate = .reset ∧ s.pulsed = true then
    .next (startRun (initEvents s.cfg) .setReady { s with pstate := .initialized })
  else .next (refuse .sequenceViolation (encode .init) s)

/-- REFRESH at acceptance: FB is converted as it stands now (R170). -/
def acceptRefresh (s : State) : Host.Outcome State Fault Refusal :=
  if s.pstate = .ready then .next (startRun (refreshEvents s.cfg (convert s)) .nothing s)
  else .next (refuse .notInitialized (encode .refresh) s)

/-- RESET (R145). -/
def execReset (s : State) : Host.Outcome State Fault Refusal := whenIdle acceptReset s

/-- INIT (R150). -/
def execInit (s : State) : Host.Outcome State Fault Refusal := whenIdle acceptInit s

/-- REFRESH (R170). -/
def execRefresh (s : State) : Host.Outcome State Fault Refusal := whenIdle acceptRefresh s

end Sys2Proof.Machine
end

