-- ==== Sys2Proof/Machine/Sequencer.lean ====
section
/-! DEFINITION. What one step does: the sequencer walking its event list (spec/10_state.md R22, spec/42_protocol_sequencer.md
R141 to R143), the acceptance step (spec/60_exceptions.md R204), and what the outside world does at the ports
(spec/10_state.md R30, R31). -/

namespace Sys2Proof.Machine

/-- The primitive the block requests from the transport now (R31). -/
def State.request (s : State) : Option Prim :=
  match s.seq with
  | .idle => none
  | .run evs k todo _ =>
    match evs[k]? with
    | some _ => todo.head?
    | none => none

/-- Event `e` at index `k` has completed: it enters the trace and the next event begins (R22, R241; log 10). -/
def completeEvent (evs : List BusEvent) (k : Nat) (fin : Finish) (e : BusEvent) (s : State) : State :=
  { s with trace := s.trace ++ [e], seq := .run evs (k + 1) (primsAt evs (k + 1)) fin }

/-- The transport acknowledges the requested primitive of event `e`: its line changes, and the event completes with its last
primitive (R22, R143). An event with no primitive left is no reachable position (log 20). -/
def acknowledge (evs : List BusEvent) (k : Nat) (todo : List Prim) (fin : Finish) (e : BusEvent) (s : State) : State :=
  match todo with
  | [] => completeEvent evs k fin e s
  | [p] => completeEvent evs k fin e (p.drive s)
  | p :: q :: rest => { p.drive s with seq := .run evs k (q :: rest) fin }

/-- One sequencer step in RUN: at the end of the list it applies `fin` and becomes IDLE; else it waits for the transport
(R22, R143). -/
def seqStep (evs : List BusEvent) (k : Nat) (todo : List Prim) (fin : Finish) (s : State) : State :=
  match evs[k]? with
  | none => { fin.apply s with seq := .idle }
  | some e => if s.ack then acknowledge evs k todo fin e s else s

/-- `accept(w)` (R204): an illegal word is refused whatever the state; else the command is executed. -/
def accept (w : Word) (s : State) : Host.Outcome State Fault Refusal :=
  match decode w with
  | .illegal _ => .next (refuse .illegalCommand w s)
  | .command i => exec i s

/-- The block's own step: RUN goes on; IDLE accepts the offered word, if there is one (R22, R30). -/
def act (s : State) : Host.Outcome State Fault Refusal :=
  match s.seq with
  | .run evs k todo fin => .next (seqStep evs k todo fin s)
  | .idle =>
    match s.stream with
    | [] => .next s
    | w :: rest => accept w { s with stream := rest }

/-- One outside event, then the block's own step (log 2). A block power-on reset takes the whole step; a shortened hold has
no meaning (R251, U12). -/
def outside (e : Outside) (s : State) : Host.Outcome State Fault Refusal :=
  match e with
  | .quiet => act s
  | .offer ws => act { s with stream := ws }
  | .ackLevel on => act { s with ack := on }
  | .shortHold =>
    match s.request with
    | some (.wait _) => .refused .holdShortened
    | _ => act s
  | .powerOn => .next (powerOnReset s)

/-- One step of a block whose configuration was accepted. -/
def runStep (s : State) : Host.Outcome State Fault Refusal :=
  match s.script with
  | [] => act s
  | e :: rest => outside e { s with script := rest }

/-- `cmd_ready = ~BUSY` (R30). -/
def State.cmdReady (s : State) : Bool := !s.busy

/-- `cmd_valid` (R30). -/
def State.cmdValid (s : State) : Bool := !s.stream.isEmpty

/-- `cmd_word`, while `cmd_valid = 1` (R30). -/
def State.cmdWord (s : State) : Option Word := s.stream.head?

end Sys2Proof.Machine
end

