-- ==== Sys2Proof/Machine/Step.lean ====
section
/-! DEFINITION. The step of the block, and how the host's harness puts one instruction where the next step takes it. -/

namespace Sys2Proof.Machine

/-- One step: a refused configuration does not run (R151, R252); else the outside world and the block act. -/
def step (s : State) : Host.Outcome State Fault Refusal :=
  if s.cfgAccepted then runStep s else .refused .badConfiguration

/-- `s` with the word offered at an idle command port and nothing else happening outside, so that the very next step accepts
it (log 2). -/
def State.withFetchWord (s : State) (nbits w : Nat) : State :=
  { s with seq := .idle, script := [], stream := tableWord nbits w :: s.stream.tail }

end Sys2Proof.Machine
end

