-- ==== Sys2Proof/Machine/Assembler.lean ====
section
/-! DEFINITION. The command-stream notation (spec/30_encoding.md R79) and the pseudo-instructions (R80). It is a host's
notation: the block itself sees words only. -/

namespace Sys2Proof.Machine

/-- The commands a pseudo-instruction stands for (R80). -/
def expandPseudo : Pseudo → List Instr
  | .pxon x y => [.setpx x y true]
  | .pxoff x y => [.setpx x y false]
  | .bringUp => [.reset, .init]
  | .showFrame => [.refresh]

/-- One line of a command stream (R79, R80). -/
inductive AsmLine where
  | blank
  | command (i : Instr)
  | pseudo (p : Pseudo)
  | raw (w : Word)
deriving DecidableEq, Repr

/-- The words of one line (R79, R80). -/
def AsmLine.words : AsmLine → List Word
  | .blank => []
  | .command i => [encode i]
  | .pseudo p => (expandPseudo p).map encode
  | .raw w => [w]

/-- White space inside a line (log 18). -/
def isSpaceChar (c : Char) : Bool := c == ' ' || c == '\t' || c == '\r'

/-- Mnemonics are case-insensitive (R79): ASCII letters in capitals. -/
def upperChar (c : Char) : Char := if 'a'.toNat ≤ c.toNat ∧ c.toNat ≤ 'z'.toNat then Char.ofNat (c.toNat - 32) else c

/-- The line without white space at its ends. -/
def trimChars (cs : List Char) : List Char :=
  ((cs.dropWhile isSpaceChar).reverse.dropWhile isSpaceChar).reverse

/-- The parts between commas. -/
def splitCommas : List Char → List (List Char)
  | [] => [[]]
  | c :: rest =>
    if c == ',' then [] :: splitCommas rest
    else
      match splitCommas rest with
      | [] => [[c]]
      | part :: parts => (c :: part) :: parts

/-- The value of a digit in a base up to 16. -/
def digitValue (base : Nat) (c : Char) : Option Nat :=
  let n := (upperChar c).toNat
  let v := if '0'.toNat ≤ n ∧ n ≤ '9'.toNat then some (n - '0'.toNat)
    else if 'A'.toNat ≤ n ∧ n ≤ 'F'.toNat then some (n - 'A'.toNat + 10)
    else none
  match v with
  | some d => if d < base then some d else none
  | none => none

/-- Digits read from the most significant one on. -/
def readDigits (base : Nat) : Nat → List Char → Option Nat
  | acc, [] => some acc
  | acc, c :: rest =>
    match digitValue base c with
    | some d => readDigits base (acc * base + d) rest
    | none => none

/-- An operand: decimal, or hexadecimal after `0x` (R79). R79 names only the small `0x`; that a capital `0X` is read too, and hex
digits in either case, is a DESIGN CHOICE (log 18). -/
def readNumber (cs : List Char) : Option Nat :=
  match cs with
  | [] => none
  | '0' :: x :: rest =>
    if upperChar x == 'X' then (if rest.isEmpty then none else readDigits 16 0 rest) else readDigits 10 0 ('0' :: x :: rest)
  | c :: rest => readDigits 10 0 (c :: rest)

/-- All operands of a list of parts. -/
def readNumbers : List (List Char) → Option (List Nat)
  | [] => some []
  | part :: parts =>
    match readNumber (trimChars part), readNumbers parts with
    | some n, some ns => some (n :: ns)
    | _, _ => none

/-- The operand list after the mnemonic: nothing, or numbers between commas (R79). -/
def readOperands (cs : List Char) : Option (List Nat) :=
  if (trimChars cs).isEmpty then some [] else readNumbers (splitCommas cs)

/-- A command whose operands have an encoding, as a line. -/
def commandLine (i : Instr) : Option AsmLine := if i.wf then some (.command i) else none

/-- A pseudo-instruction whose operands have an encoding, as a line. -/
def pseudoLine (p : Pseudo) : Option AsmLine := if p.wf then some (.pseudo p) else none

/-- The line a mnemonic in capitals and its operands make (R79, R80). -/
def readMnemonic (m : List Char) (ops : List Nat) : Option AsmLine :=
  if m = ['S', 'E', 'T', 'P', 'X'] then
    match ops with
    | [x, y, on] => if on = 0 then commandLine (.setpx x y false) else if on = 1 then commandLine (.setpx x y true) else none
    | _ => none
  else if m = ['C', 'L', 'E', 'A', 'R'] then (if ops.isEmpty then commandLine .clear else none)
  else if m = ['R', 'E', 'S', 'E', 'T'] then (if ops.isEmpty then commandLine .reset else none)
  else if m = ['I', 'N', 'I', 'T'] then (if ops.isEmpty then commandLine .init else none)
  else if m = ['R', 'E', 'F', 'R', 'E', 'S', 'H'] then (if ops.isEmpty then commandLine .refresh else none)
  else if m = ['P', 'X', 'O', 'N'] then
    match ops with
    | [x, y] => pseudoLine (.pxon x y)
    | _ => none
  else if m = ['P', 'X', 'O', 'F', 'F'] then
    match ops with
    | [x, y] => pseudoLine (.pxoff x y)
    | _ => none
  else if m = ['B', 'E', 'G', 'I', 'N'] then (if ops.isEmpty then pseudoLine .bringUp else none)
  else if m = ['S', 'H', 'O', 'W'] then (if ops.isEmpty then pseudoLine .showFrame else none)
  else if m = ['.', 'W', 'O', 'R', 'D'] then
    match ops with
    | [v] => if v < 2 ^ 32 then some (.raw (BitVec.ofNat 32 v)) else none
    | _ => none
  else none

/-- One line of text: `;` starts a comment, one command a line (R79). -/
def readLine (cs : List Char) : Option AsmLine :=
  let body := trimChars (cs.takeWhile (· != ';'))
  if body.isEmpty then some .blank
  else
    match readOperands (body.dropWhile (fun c => !isSpaceChar c)) with
    | some ops => readMnemonic ((body.takeWhile (fun c => !isSpaceChar c)).map upperChar) ops
    | none => none

/-- The command words of a text, line by line; none where a line is not of the notation. -/
def assemble : List (List Char) → Option (List Word)
  | [] => some []
  | l :: ls =>
    match readLine l, assemble ls with
    | some line, some ws => some (line.words ++ ws)
    | _, _ => none

end Sys2Proof.Machine
end

