-- ==== Sys2Proof/Safety.lean ====
section
/-! DEFINITION. What counts as a well-kept state and a safe run, in the terms the statements use: the invariant of the block,
the shape of its bus trace, a run without a refused command (spec/60_exceptions.md R207), and what a run puts on the bus. -/

namespace Sys2Proof.Machine

/-- The primitives still to be acknowledged belong to event `k`: a non-empty tail of its expansion, or nothing past the end
of the list (R22, R141). -/
def TodoOk (evs : List BusEvent) (k : Nat) (todo : List Prim) : Prop :=
  match evs[k]? with
  | none => k = evs.length ∧ todo = []
  | some e => todo ≠ [] ∧ todo <:+ e.prims

/-- What is running is one of the three event lists, in the protocol state that goes with it (R145, R150, R170, R176). For
REFRESH the burst is still the conversion of FB, because nothing changes FB while the block is busy (R123). -/
def RunOk (s : State) (evs : List BusEvent) (fin : Finish) : Prop :=
  match fin with
  | .setPulsed => s.pstate = .reset ∧ evs = resetEvents s.cfg
  | .setReady => s.pstate = .initialized ∧ evs = initEvents s.cfg
  | .nothing => s.pstate = .ready ∧ evs = refreshEvents s.cfg (convert s)

/-- The sequencer position is one that the protocol allows. -/
def SeqOk (s : State) : Prop :=
  match s.seq with
  | .idle => s.pstate ≠ .initialized
  | .run evs k todo fin => TodoOk evs k todo ∧ RunOk s evs fin

/-- A frame has begun on the bus and has not ended: some of its primitives are acknowledged and some are not. -/
def midFrame (s : State) : Bool :=
  match s.seq with
  | .idle => false
  | .run evs k todo _ =>
    match evs[k]? with
    | some (.frame dc bytes) => decide (todo.length < (BusEvent.frame dc bytes).prims.length)
    | _ => false

/-- LAST_CAUSE names a cause exactly when a sticky bit is set, and the bit of that cause is set (R200, R205, R207). -/
def ErrOk (s : State) : Prop :=
  match s.lastCause with
  | none => s.errIllegal = false ∧ s.errSeq = false ∧ s.errNotInit = false ∧ s.errword = 0
  | some c => s.err c = true

/-- The invariant of the block. -/
structure BlockInv (s : State) : Prop where
  /-- A configuration that is run has passed the check (R151, R252). -/
  config : s.cfgAccepted = true → s.cfg.accepts = true
  /-- FB is in canonical form and inside its address space (R50). -/
  memory : s.fb.wf = true
  /-- After the protocol state RESET a pulse has completed (R175, R176). -/
  pulsed : s.pstate ≠ .reset → s.pulsed = true
  /-- The sequencer position fits the protocol state (R22, R176). -/
  position : SeqOk s
  /-- Chip select is asserted exactly inside a frame (R141, R166). -/
  chipSelect : s.csAsserted = midFrame s
  /-- LAST_CAUSE and ERRWORD agree with the sticky bits. -/
  errors : ErrOk s

/-- The events the accepted command still has to emit, the current one included. -/
def State.pending (s : State) : List BusEvent :=
  match s.seq with
  | .idle => []
  | .run evs k _ _ => evs.drop k

/-- The events the accepted command has emitted so far. -/
def State.emitted (s : State) : List BusEvent :=
  match s.seq with
  | .idle => []
  | .run evs k _ _ => evs.take k

/-- The shape of everything the block has emitted or is about to emit since block power-on: some reset pulses, at least one
of them once PULSED is set; then, after PSTATE has left RESET, one initialization sequence; then whole frames, each after its
window setup and of 8064 bytes, and none before READY; and what the running command has emitted stands at the end of the
trace (R22, R145, R150, R152, R170, R256). -/
def TraceShape (s : State) : Prop :=
  ∃ (pulses : Nat) (bursts : List (List Byte)),
    (∀ wb ∈ bursts, wb.length = wireBytes) ∧
    s.trace ++ s.pending =
      (List.replicate pulses (resetEvents s.cfg)).flatten
        ++ (if s.pstate = .reset then [] else initEvents s.cfg)
        ++ (bursts.map (refreshEvents s.cfg)).flatten ∧
    (s.pulsed = true → 0 < pulses) ∧
    (s.pstate ≠ .ready → bursts = []) ∧
    s.emitted <:+ s.trace

/-- The words that stand at the command port in the coming step: what the host offers in it, or what it offered before
(R30; log 2). -/
def State.offered (s : State) : List Word :=
  match s.script with
  | .offer ws :: _ => ws
  | _ => s.stream

/-- No command has been refused since block power-on: `STATUS[6:4] = 0`, the premise R207 asks of a claim about the trace. -/
def State.clean (s : State) : Bool := s.status.extractLsb' 4 3 == 0

/-- The events a machine state has emitted, as primitives: what a recording transport has seen of the completed events. -/
def eventPrims (evs : List BusEvent) : List Prim := evs.flatMap BusEvent.prims

/-- How many steps a transport that always acknowledges needs for a command that emits `evs`: one per primitive, and the
completion (R22). -/
def stepsOf (evs : List BusEvent) : Nat := (eventPrims evs).length + 1

/-- The lines after the transport has acknowledged the primitives `ps` in order (R31, R142). -/
def driveAll (ps : List Prim) (s : State) : State := ps.foldl (fun u p => p.drive u) s

/-- The primitives the transport acknowledges during `n` steps from `s`, in order: what a recording transport sees. -/
def ackedPrims : Nat → State → List Prim
  | 0, _ => []
  | n + 1, s =>
    match step s with
    | .next t => (if s.ack then s.request.toList else []) ++ ackedPrims n t
    | .fault _ => []
    | .refused _ => []

/-- The block alone with a transport that always acknowledges: its configuration is accepted and the outside world plans
nothing. -/
def Undisturbed (s : State) : Prop := s.cfgAccepted = true ∧ s.ack = true ∧ s.script = []

/-- How many bits of a byte are set. -/
def byteOnes (b : Byte) : Nat := (serialBits b).count true

/-- How many bits of a list of bytes are set. -/
def onesCount (bs : List Byte) : Nat := (bs.map byteOnes).sum

end Sys2Proof.Machine
end

