-- ==== Sys2Proof/Certificates/Slice0/Obligations.lean ====
section
/-! DEFINITION. The statements about the model, from the spec's numbered rules. -/

open Sys2Proof Sys2Proof.Machine

/-! ### Encoding (spec/30_encoding.md) -/

/-- Words of spec/95_test_vectors.md 2.1, one per family, written out from the formats of R71 and R72. -/
def Obligations.SampleWordsDecode : Prop :=
  decode 0b00010001000000000000000000000000#32 = .command (.setpx 0 0 true) ∧
  decode 0b00010000000101111111000010100111#32 = .command (.setpx 383 167 false) ∧
  decode 0b00100000000000000000000000000000#32 = .command .clear ∧
  decode 0b00110000000000000000000000000000#32 = .command .reset ∧
  decode 0b01000000000000000000000000000000#32 = .command .init ∧
  decode 0b01010000000000000000000000000000#32 = .command .refresh ∧
  decode 0x00000000#32 = .illegal .opcode ∧
  decode 0x12000000#32 = .illegal .reservedBits ∧
  decode 0x20000001#32 = .illegal .reservedBits ∧
  decode 0x58000000#32 = .illegal .reservedBits ∧
  decode 0x60000000#32 = .illegal .opcode ∧
  decode 0xFFFFFFFF#32 = .illegal .opcode

/-- No bit of an encoding is dropped: every well-formed instruction is read back from its word (R71, R72, R77). -/
def Obligations.DecodeOfEncodeIsIdentity : Prop :=
  ∀ i : Instr, i.wf = true → decode (encode i) = .command i

/-- Every word that decodes to a command is the encoding of that command, and its operands fit their fields (R71 to R73). -/
def Obligations.EncodeOfDecodeIsIdentity : Prop :=
  ∀ (w : Word) (i : Instr), decode w = .command i → i.wf = true ∧ encode i = w

/-- R77: the decoder, case by case on `w[31:28]`, the fields read as numbers. -/
def Obligations.DecodeFollowsOpField : Prop :=
  ∀ w : Word,
    (w.toNat / 2 ^ 28 = 1 → w.toNat / 2 ^ 25 % 2 ^ 3 = 0 →
      decode w = .command (.setpx (w.toNat / 2 ^ 12 % 2 ^ 12) (w.toNat % 2 ^ 12) (decide (w.toNat / 2 ^ 24 % 2 = 1)))) ∧
    (w.toNat / 2 ^ 28 = 1 → w.toNat / 2 ^ 25 % 2 ^ 3 ≠ 0 → ∃ why, decode w = .illegal why) ∧
    (w.toNat / 2 ^ 28 = 2 → w.toNat % 2 ^ 28 = 0 → decode w = .command .clear) ∧
    (w.toNat / 2 ^ 28 = 3 → w.toNat % 2 ^ 28 = 0 → decode w = .command .reset) ∧
    (w.toNat / 2 ^ 28 = 4 → w.toNat % 2 ^ 28 = 0 → decode w = .command .init) ∧
    (w.toNat / 2 ^ 28 = 5 → w.toNat % 2 ^ 28 = 0 → decode w = .command .refresh) ∧
    (2 ≤ w.toNat / 2 ^ 28 → w.toNat / 2 ^ 28 ≤ 5 → w.toNat % 2 ^ 28 ≠ 0 → ∃ why, decode w = .illegal why) ∧
    (w.toNat / 2 ^ 28 = 0 ∨ 6 ≤ w.toNat / 2 ^ 28 → ∃ why, decode w = .illegal why)

/-- R73: the opcode map. A word decodes to a command exactly when it selects the row of that command, at most one row matches
any word, a word that matches no row is illegal, and OP 0x0 and 0x6 to 0xF match no row. -/
def Obligations.OpcodeMapDecidesTheCommand : Prop :=
  opcodeRows.map (fun r => (r.mnemonic, r.value, r.mask)) =
    [("SETPX", 0x10000000#32, 0xFE000000#32), ("CLEAR", 0x20000000#32, 0xFFFFFFFF#32),
     ("RESET", 0x30000000#32, 0xFFFFFFFF#32), ("INIT", 0x40000000#32, 0xFFFFFFFF#32),
     ("REFRESH", 0x50000000#32, 0xFFFFFFFF#32)] ∧
  ∀ w : Word,
    (∀ r ∈ opcodeRows, (w &&& r.mask = r.value ↔ ∃ i, decode w = .command i ∧ i.mnemonic = r.mnemonic)) ∧
    (∀ r ∈ opcodeRows, ∀ r' ∈ opcodeRows, w &&& r.mask = r.value → w &&& r'.mask = r'.value → r = r') ∧
    ((∀ r ∈ opcodeRows, w &&& r.mask ≠ r.value) → ∃ why, decode w = .illegal why) ∧
    (opField w = 0#4 ∨ 6#4 ≤ opField w → ∀ r ∈ opcodeRows, w &&& r.mask ≠ r.value)

/-- R79: the words of the command notation, and R80: the pseudo-instructions, with the words they expand to. -/
def Obligations.PseudoInstructionsExpand : Prop :=
  (∀ x y, (AsmLine.pseudo (.pxon x y)).words = [encode (.setpx x y true)]) ∧
  (∀ x y, (AsmLine.pseudo (.pxoff x y)).words = [encode (.setpx x y false)]) ∧
  (AsmLine.pseudo .bringUp).words = [encode .reset, encode .init] ∧
  (AsmLine.pseudo .showFrame).words = [encode .refresh]

/-- R79: a SETPX word is `0x10000000 | on << 24 | x << 12 | y`, and the other commands encode as their match values. -/
def Obligations.EncodingsOfTheNotation : Prop :=
  (∀ x y on, x < 4096 → y < 4096 →
    encode (.setpx x y on) =
      0x10000000#32 ||| (BitVec.ofBool on).setWidth 32 <<< 24 ||| BitVec.ofNat 32 x <<< 12 ||| BitVec.ofNat 32 y) ∧
  encode .clear = 0x20000000#32 ∧ encode .reset = 0x30000000#32 ∧ encode .init = 0x40000000#32 ∧
  encode .refresh = 0x50000000#32

/-- R75: the field value a host places for a signed coordinate, and that it is out of range exactly when the coordinate is,
for every bound the parameters allow. -/
def Obligations.HostCoordinatesKeepTheirRange : Prop :=
  ∀ c : Int,
    (0 ≤ c → c ≤ 4095 → (hostCoord c : Int) = c) ∧
    (-2048 ≤ c → c ≤ -1 → (hostCoord c : Int) = 4096 + c) ∧
    (c < -2048 ∨ 4095 < c → hostCoord c = 0xFFF) ∧
    hostCoord c < 4096 ∧
    ∀ n : Nat, 1 ≤ n → n ≤ 384 → (hostCoord c < n ↔ 0 ≤ c ∧ c < n)

/-! ### The step (spec/10_state.md R22, R30; spec/60_exceptions.md R204) -/

/-- A step of an accepted configuration in IDLE runs the instruction that the offered word decodes to, with the word taken
from the port; around `exec` the step adds only that. A quiet outside event is consumed. -/
def Obligations.StepRunsTheDecodedInstruction : Prop :=
  ∀ (s : State) (w : Word) (rest : List Word) (later : List Outside) (i : Instr),
    s.cfgAccepted = true → s.seq = .idle → s.stream = w :: rest →
    (s.script = [] ∧ later = [] ∨ s.script = .quiet :: later) → decode w = .command i →
    step s = exec i { s with stream := rest, script := later }

/-- R201 with the refusal step of R205: an illegal word is refused in every protocol state; the step makes the three writes
and takes the word from the port, and changes nothing else. -/
def Obligations.IllegalWordIsRefused : Prop :=
  ∀ (s : State) (w : Word) (rest : List Word) (why : Illegal),
    s.cfgAccepted = true → s.seq = .idle → s.stream = w :: rest → s.script = [] → decode w = .illegal why →
    step s = .next { s with stream := rest, errIllegal := true, lastCause := some .illegalCommand, errword := w }

/-- R76: which words are illegal, and that an illegal word offered in IDLE is refused with ILLEGAL_COMMAND and no other
effect. -/
def Obligations.IllegalWordsAreThese : Prop :=
  ∀ w : Word,
    ((∃ why, decode w = .illegal why) ↔
      ((w.toNat / 2 ^ 28 = 0 ∨ 6 ≤ w.toNat / 2 ^ 28) ∨
       (w.toNat / 2 ^ 28 = 1 ∧ w.toNat / 2 ^ 25 % 2 ^ 3 ≠ 0) ∨
       (2 ≤ w.toNat / 2 ^ 28 ∧ w.toNat / 2 ^ 28 ≤ 5 ∧ w.toNat % 2 ^ 28 ≠ 0))) ∧
    ∀ s : State, (∃ why, decode w = .illegal why) →
      accept w s = .next { s with errIllegal := true, lastCause := some .illegalCommand, errword := w }

/-- Of the model's outside events (log 2, its own choice), a quiet event, an offer, a change of the acknowledgement and a
shortened hold with no WAIT outstanding (log 16) change the inputs and nothing else, and then the block acts as it would
without an event. The two others have their own statements: ShortenedHoldIsRefused and PowerOnResetRestoresTheResetValues. -/
def Obligations.EventsShortOfPowerOnDriveOnlyTheInputs : Prop :=
  ∀ (s : State) (later : List Outside) (ws : List Word) (on : Bool), s.cfgAccepted = true →
    step { s with script := .quiet :: later } = act { s with script := later } ∧
    step { s with script := .offer ws :: later } = act { s with stream := ws, script := later } ∧
    step { s with script := .ackLevel on :: later } = act { s with ack := on, script := later } ∧
    ((∀ ms, s.request ≠ some (.wait ms)) →
      step { s with script := .shortHold :: later } = act { s with script := later })

/-- A busy block holds the offered command (R30): it neither performs nor refuses it, and whatever happens outside except a
block power-on reset, the word stays at the port unless the host changes it. FB and every error register keep their values
too. That exec of a command at a busy block answers the same state is the model's choice (log 12), deduced from R22 and
R30. -/
def Obligations.BusyBlockHoldsTheCommand : Prop :=
  (∀ (i : Instr) (s : State), s.busy = true → exec i s = .next s) ∧
  ∀ s t : State, s.busy = true → step s = .next t → (∀ later, s.script ≠ .powerOn :: later) →
    t.stream = s.offered ∧
    (∀ a, t.fbByte a = s.fbByte a) ∧ (∀ c, t.err c = s.err c) ∧ t.lastCause = s.lastCause ∧ t.errword = s.errword ∧
    t.cfg = s.cfg

/-- The instruction placed by `withFetchWord` is what the next step runs. That function is the model's own stand-in for a host
that has the word on the port of an idle block (log 2). -/
def Obligations.PlacedWordIsRunNext : Prop :=
  ∀ (s : State) (i : Instr), s.cfgAccepted = true → i.wf = true →
    step (s.withFetchWord 32 (encode i).toNat) =
      exec i { s with seq := .idle, script := [], stream := s.stream.tail }

/-! ### Framebuffer commands (spec/40_framebuffer.md) -/

/-- R101: the effective address and the bit of SETPX; for in-range operands the address lies inside FB, and different pixels
have different (address, bit) pairs. -/
def Obligations.EffectiveAddressIsInjective : Prop :=
  (∀ x y, pixelOffset x y = (y >>> 3) * 384 + x ∧ pixelBit y = y &&& 7 ∧ pixelBit y = y % 8) ∧
  (∀ x y, x < 384 → y < 168 → y >>> 3 ≤ 20 ∧ pixelOffset x y ≤ 8063) ∧
  (∀ x y x' y', x < 384 → y < 168 → x' < 384 → y' < 168 →
    pixelOffset x y = pixelOffset x' y' → pixelBit y = pixelBit y' → x = x' ∧ y = y')

/-- SETPX in range (R100): the block answers a next state in which the one byte at `(y >> 3)*384 + x` has bit `y & 7` set or
cleared, every other byte reads as before, and nothing else changed. It holds in every protocol state. -/
def Obligations.SetpxWritesItsByte : Prop :=
  ∀ (s : State) (x y : Nat) (on : Bool),
    s.seq = .idle → s.cfg.accepts = true → x < s.cfg.width → y < s.cfg.height →
    ∃ t, exec (.setpx x y on) s = .next t ∧
      t.fbByte ((y >>> 3) * 384 + x) =
        (if on then s.fbByte ((y >>> 3) * 384 + x) ||| (1#8 <<< (y % 8))
         else s.fbByte ((y >>> 3) * 384 + x) &&& ~~~(1#8 <<< (y % 8))) ∧
      (∀ a, a ≠ (y >>> 3) * 384 + x → t.fbByte a = s.fbByte a) ∧
      t = { s with fb := t.fb } ∧ t.status = s.status

/-- R103: SETPX at an out-of-range coordinate leaves all state unchanged. -/
def Obligations.SetpxOutOfRangeChangesNothing : Prop :=
  ∀ (s : State) (x y : Nat) (on : Bool), s.seq = .idle → (s.cfg.width ≤ x ∨ s.cfg.height ≤ y) →
    exec (.setpx x y on) s = .next s

/-- Seen as pixels (R24, R52): SETPX in range gives its pixel the value `on` and leaves every other pixel alone. -/
def Obligations.SetpxChangesOnlyItsPixel : Prop :=
  ∀ (s t : State) (x y : Nat) (on : Bool),
    s.seq = .idle → s.cfg.accepts = true → x < s.cfg.width → y < s.cfg.height → exec (.setpx x y on) s = .next t →
    ∀ x' y', x' < 384 → y' < 168 →
      t.pixel x' y' = if x' = x ∧ y' = y then on else s.pixel x' y'

/-- R105: CLEAR is the word 0x20000000 and no other word with that OP; it completes in every protocol state, every
framebuffer byte is 0x00 after it, a conversion then gives 8064 zero bytes, and nothing but FB changes. -/
def Obligations.ClearZeroesTheFramebuffer : Prop :=
  encode .clear = 0x20000000#32 ∧ decode 0x20000000#32 = .command .clear ∧
  (∀ w : Word, w.toNat / 2 ^ 28 = 2 → w ≠ 0x20000000#32 → ∃ why, decode w = .illegal why) ∧
  ∀ s : State, s.seq = .idle →
    ∃ t, exec .clear s = .next t ∧ (∀ a, a < 8064 → t.fbByte a = 0#8) ∧ convert t = List.replicate 8064 0#8 ∧
      t = { s with fb := t.fb } ∧ t.status = s.status

/-- R104: SETPX and CLEAR are performed in every PSTATE, emit no bus event and do not change PSTATE. -/
def Obligations.PixelCommandsIgnoreProtocolState : Prop :=
  ∀ (s : State) (p : PState) (i : Instr), s.seq = .idle → s.cfg.accepts = true →
    (i = .clear ∨ ∃ x y on, i = .setpx x y on) →
    ∃ t, exec i { s with pstate := p } = .next t ∧ t.pstate = p ∧ t.trace = s.trace ∧ t.seq = .idle ∧
      (∀ c, t.err c = s.err c) ∧ t.lastCause = s.lastCause ∧ t.errword = s.errword

/-! ### pixel_packer (spec/41_pixel_packer.md) -/

/-- R120: bit j of n1 goes to output bit 7 - 2j, bit j of n2 to output bit 6 - 2j; with the rule's corner cases. -/
def Obligations.NibbleInterleaves : Prop :=
  (∀ (n1 n2 : Nibble) (j : Nat), j < 4 →
    (nibble n1 n2).getLsbD (7 - 2 * j) = n1.getLsbD j ∧ (nibble n1 n2).getLsbD (6 - 2 * j) = n2.getLsbD j) ∧
  nibble 0x0 0x0 = 0x00#8 ∧ nibble 0xF 0xF = 0xFF#8 ∧ nibble 0xF 0x0 = 0xAA#8 ∧ nibble 0x0 0xF = 0x55#8 ∧
  nibble 0x1 0x0 = 0x80#8

/-- R121: PAIR returns the byte of the low nibbles, then the byte of the high nibbles. -/
def Obligations.PairPutsLowNibblesFirst : Prop :=
  (∀ b1 b2 : Byte,
    pair b1 b2 =
      [nibble ((b1 &&& 0xF#8).setWidth 4) ((b2 &&& 0xF#8).setWidth 4),
       nibble (((b1 >>> 4) &&& 0xF#8).setWidth 4) (((b2 >>> 4) &&& 0xF#8).setWidth 4)]) ∧
  (∀ b : Byte, ((b >>> 4) &&& 0xF#8).setWidth 4 = (b >>> 4).setWidth 4) ∧
  pair 0x01 0x00 = [0x80#8, 0x00#8] ∧ pair 0x10 0x00 = [0x00#8, 0x80#8]

/-- R124: the closed form of CONVERT. The WireBuffer has 8064 bytes (R123), byte `p*42 + band*2 + h` is the interleave of one
nibble of each column of the pair, and the order is that of the 21 bands inside each column pair. -/
def Obligations.ConvertClosedForm : Prop :=
  (∀ s : State, (convert s).length = 8064) ∧
  (∀ (s : State) (p band h : Nat), p < 192 → band < 21 → h < 2 →
    (convert s)[p * 42 + band * 2 + h]? =
      some (nibble (((s.fbByte (band * 384 + 2 * p) >>> (4 * h)) &&& 0xF#8).setWidth 4)
                   (((s.fbByte (band * 384 + 2 * p + 1) >>> (4 * h)) &&& 0xF#8).setWidth 4))) ∧
  ∀ s : State, convert s =
    (List.range 192).flatMap fun p => (List.range 21).flatMap fun band =>
      pair (s.fbByte (band * 384 + 2 * p)) (s.fbByte (band * 384 + 2 * p + 1))

/-- R125: pixel (x, y) lands in byte `p*42 + band*2 + h` at bit `7 - 2j - s`; that map is a bijection between the 384 × 168
pixels and the 8064 × 8 wire bits; so CONVERT preserves the number of set bits, and an all-zero framebuffer gives 8064 zero
bytes. -/
def Obligations.ConvertIsABitPermutation : Prop :=
  (∀ (s : State) (x y : Nat), x < 384 → y < 168 →
    ∃ b, (convert s)[(x >>> 1) * 42 + (y >>> 3) * 2 + ((y &&& 7) >>> 2)]? = some b ∧
      b.getLsbD (7 - 2 * ((y &&& 7) &&& 3) - (x &&& 1)) = s.pixel x y) ∧
  (∀ x y, wireIndex x y = (x >>> 1) * 42 + (y >>> 3) * 2 + ((y &&& 7) >>> 2) ∧
    wireBit x y = 7 - 2 * ((y &&& 7) &&& 3) - (x &&& 1)) ∧
  (∀ x y, x < 384 → y < 168 → wireIndex x y < 8064 ∧ wireBit x y < 8) ∧
  (∀ x y x' y', x < 384 → y < 168 → x' < 384 → y' < 168 →
    wireIndex x y = wireIndex x' y' → wireBit x y = wireBit x' y' → x = x' ∧ y = y') ∧
  (∀ n b, n < 8064 → b < 8 → ∃ x y, x < 384 ∧ y < 168 ∧ wireIndex x y = n ∧ wireBit x y = b) ∧
  (∀ s : State, onesCount (convert s) = ((List.range 8064).map fun a => byteOnes (s.fbByte a)).sum) ∧
  ∀ s : State, (∀ a, a < 8064 → s.fbByte a = 0#8) → convert s = List.replicate 8064 0#8

/-- R126: CONVERT depends on the 8064 bytes of FB alone: equal framebuffers give equal WireBuffers, whatever else differs. -/
def Obligations.ConvertDependsOnlyOnTheFramebuffer : Prop :=
  ∀ s t : State, (∀ a, a < 8064 → s.fbByte a = t.fbByte a) → convert s = convert t

/-! ### Bus events (spec/42_protocol_sequencer.md) -/

/-- R144: the helpers `hold` and `tx`. -/
def Obligations.TransactionHelpers : Prop :=
  (∀ ms, 0 < ms → hold ms = [.wait ms]) ∧ hold 0 = [] ∧
  (∀ op, tx op [] = [.frame .cmd [op]]) ∧
  (∀ op d ds, tx op (d :: ds) = [.frame .cmd [op], .frame .data (d :: ds)])

/-- R141: a frame expands to one selection, the mode, its bytes in list order, and one deselection, and no other primitive
stands between the two. -/
def Obligations.FrameIsOneChipSelect : Prop :=
  ∀ (dc : DC) (bytes : List Byte),
    (BusEvent.frame dc bytes).prims = [.sel true, .mode dc] ++ bytes.map Prim.xfer ++ [.sel false] ∧
    ∀ on, Prim.sel on ∉ [Prim.mode dc] ++ bytes.map Prim.xfer

/-- R142: an Rst event is one request that drives RST_LEVEL, and a Wait event is one request, outstanding until it is
acknowledged. The moments are the model's choice: RST_LEVEL moves at the acknowledgement (log 11), and either event enters the
trace when it completes (log 10). How long a hold lasts is outside the model (log 15). -/
def Obligations.ResetLineAndHoldEvents : Prop :=
  (∀ level, (BusEvent.rst level).prims = [.rst level]) ∧ (∀ ms, (BusEvent.wait ms).prims = [.wait ms]) ∧
  ∀ (s : State) (evs : List BusEvent) (k : Nat) (fin : Finish) (e : BusEvent),
    Undisturbed s → evs[k]? = some e → s.seq = .run evs k e.prims fin →
    (∀ level, e = .rst level → s.request = some (.rst level) ∧
      ∃ t, step s = .next t ∧ t.rstLevel = level ∧ t.csAsserted = s.csAsserted ∧ t.dc = s.dc ∧ t.trace = s.trace ++ [e]) ∧
    (∀ ms, e = .wait ms → s.request = some (.wait ms) ∧
      ∃ t, step s = .next t ∧ t.rstLevel = s.rstLevel ∧ t.csAsserted = s.csAsserted ∧ t.dc = s.dc ∧
        t.trace = s.trace ++ [e])

/-- R143: a transport that never acknowledges leaves the block in its RUN position forever, with BUSY 1 and no command
accepted. -/
def Obligations.StalledTransportFreezesTheBlock : Prop :=
  ∀ (n : Nat) (s : State) (evs : List BusEvent) (k : Nat) (todo : List Prim) (fin : Finish),
    s.cfgAccepted = true → s.script = [] → s.ack = false → s.seq = .run evs k todo fin → k < evs.length →
    Host.Core.run Sys2Proof.core n s = .next s ∧ s.busy = true ∧ s.cmdReady = false

/-- A hold that the transport shortens has no meaning in the model (R251, U12): the step is refused by name. -/
def Obligations.ShortenedHoldIsRefused : Prop :=
  ∀ (s : State) (later : List Outside) (ms : Nat),
    s.cfgAccepted = true → s.script = .shortHold :: later → s.request = some (.wait ms) →
    step s = .refused .holdShortened

/-- R22: an accepted command runs to its end. That each primitive takes one step of its own is the model's choice (log 1). With a transport that acknowledges, a block that has just started the event
list `evs` (any list of events, whatever they are) is IDLE again after one step per primitive and one more; the trace has
grown by exactly `evs`, `fin` is applied, the bus lines have the levels the primitives give them in order, and nothing else
has changed. -/
def Obligations.EventListRunsToCompletion : Prop :=
  ∀ (s : State) (evs : List BusEvent) (fin : Finish),
    Undisturbed s → s.seq = .run evs 0 (primsAt evs 0) fin →
    ∃ t : State, Host.Core.run Sys2Proof.core (stepsOf evs) s = .next t ∧
      t = { fin.apply (driveAll (eventPrims evs) s) with seq := .idle, trace := s.trace ++ evs }

/-- R61, R141, R166, with one step for each primitive, the model's choice (log 1): what the transport acknowledges while the list runs is exactly the events' primitives in order, so no
frame is split, reordered or interleaved. -/
def Obligations.TransportSeesExactlyTheEvents : Prop :=
  ∀ (s : State) (evs : List BusEvent) (fin : Finish),
    Undisturbed s → s.seq = .run evs 0 (primsAt evs 0) fin →
    ackedPrims (stepsOf evs) s = eventPrims evs

/-! ### Protocol commands (spec/42_protocol_sequencer.md, spec/60_exceptions.md) -/

/-- RESET in PSTATE RESET (R145): it completes its acceptance step with the reset-pulse event list running and `fin` setting
PULSED; nothing else changes. -/
def Obligations.ResetStartsThePulse : Prop :=
  ∀ s : State, s.seq = .idle → s.pstate = .reset →
    exec .reset s = .next { s with
      seq := (.run
        ([.rst true] ++ hold s.cfg.tRstH1 ++ [.rst false] ++ hold s.cfg.tRstL ++ [.rst true] ++ hold s.cfg.tRstH2)
        0 [.rst true] .setPulsed) }

/-- R202: RESET outside PSTATE RESET, and INIT outside PSTATE RESET or with PULSED = 0, are refused with SEQUENCE_VIOLATION:
the sticky bit, LAST_CAUSE and ERRWORD are written and nothing else. -/
def Obligations.SequenceViolationsAreRefused : Prop :=
  (∀ s : State, s.seq = .idle → s.pstate ≠ .reset →
    exec .reset s = .next { s with errSeq := true, lastCause := some .sequenceViolation, errword := 0x30000000#32 }) ∧
  ∀ s : State, s.seq = .idle → (s.pstate ≠ .reset ∨ s.pulsed = false) →
    exec .init s = .next { s with errSeq := true, lastCause := some .sequenceViolation, errword := 0x40000000#32 }

/-- R203: REFRESH outside PSTATE READY is refused with NOT_INITIALIZED: the three writes and nothing else. -/
def Obligations.RefreshBeforeReadyIsRefused : Prop :=
  ∀ s : State, s.seq = .idle → s.pstate ≠ .ready →
    exec .refresh s = .next { s with errNotInit := true, lastCause := some .notInitialized, errword := 0x50000000#32 }

/-- INIT in PSTATE RESET with PULSED = 1 (R150): PSTATE is INITIALIZED at acceptance, the records of INIT_TABLE are running
as events, and `fin` makes PSTATE READY; nothing else changes. -/
def Obligations.InitStartsTheSequence : Prop :=
  ∀ s : State, s.seq = .idle → s.cfg.accepts = true → s.pstate = .reset → s.pulsed = true →
    exec .init s = .next { s with
      pstate := .initialized
      seq := (.run (s.cfg.initTable.flatMap fun r => tx r.op r.data ++ hold r.delay) 0
        (primsAt (s.cfg.initTable.flatMap fun r => tx r.op r.data ++ hold r.delay) 0) .setReady) }

/-- REFRESH in READY (R170): SET_WINDOW_EVENTS then SEND_FRAME_EVENTS of the framebuffer as it stands at acceptance are
running; nothing else changes. -/
def Obligations.RefreshStartsTheFrame : Prop :=
  ∀ s : State, s.seq = .idle → s.cfg.accepts = true → s.pstate = .ready →
    exec .refresh s = .next { s with
      seq := (.run
        [.frame .cmd [s.cfg.ops.caset], .frame .data s.cfg.winColData, .frame .cmd [s.cfg.ops.raset],
         .frame .data s.cfg.winRowData, .frame .cmd [s.cfg.ops.ramwr], .frame .data (convert s)]
        0 [.sel true, .mode .cmd, .xfer s.cfg.ops.caset, .sel false] .nothing) }

/-- The frame of the three protocol commands: whatever they answer, every framebuffer byte reads as before, no line moves, no
event enters the trace, and PULSED keeps its value in the acceptance step. When the command starts its events, no error
register changes. -/
def Obligations.ProtocolCommandsLeaveTheRest : Prop :=
  ∀ (i : Instr) (s t : State), (i = .reset ∨ i = .init ∨ i = .refresh) → s.cfg.accepts = true → exec i s = .next t →
    (∀ a, t.fbByte a = s.fbByte a) ∧ t.fb = s.fb ∧ t.cfg = s.cfg ∧ t.trace = s.trace ∧ t.rstLevel = s.rstLevel ∧
    t.csAsserted = s.csAsserted ∧ t.dc = s.dc ∧ t.pulsed = s.pulsed ∧ t.stream = s.stream ∧
    (t.seq ≠ s.seq → (∀ c, t.err c = s.err c) ∧ t.lastCause = s.lastCause ∧ t.errword = s.errword) ∧
    (t.pstate ≠ s.pstate → i = .init ∧ t.pstate = .initialized)

/-- A whole RESET (R145, R29, V-S1), one step for each primitive (log 1): accepted in PSTATE RESET by an undisturbed block, it
ends with exactly the reset-pulse events added to the trace, the reset line high and PULSED set. Everything else is as it was:
the block is IDLE in PSTATE RESET, and every framebuffer byte reads as before. -/
def Obligations.ResetPulsesTheLine : Prop :=
  ∀ s : State, Undisturbed s → s.seq = .idle → s.pstate = .reset →
    ∃ t u : State, exec .reset s = .next t ∧ Host.Core.run Sys2Proof.core (stepsOf (resetEvents s.cfg)) t = .next u ∧
      u = { s with
        pulsed := true
        rstLevel := true
        trace := s.trace ++ ([.rst true] ++ hold s.cfg.tRstH1 ++ [.rst false] ++ hold s.cfg.tRstL ++ [.rst true]
          ++ hold s.cfg.tRstH2) } ∧
      (∀ a, u.fbByte a = s.fbByte a)

/-- R152: the trace of one INIT is exactly INIT_TABLE flattened in order, and at its end PSTATE is READY (R150). The bus is left
deselected, with the command/data line where the primitives of the sequence leave it; nothing else has changed, and every
framebuffer byte reads as before. That the run takes one step for each primitive is the model's choice (log 1). -/
def Obligations.InitSendsTheTableExactly : Prop :=
  ∀ s : State, Undisturbed s → s.cfg.accepts = true → s.seq = .idle → s.pstate = .reset → s.pulsed = true →
    ∃ t u : State, exec .init s = .next t ∧ Host.Core.run Sys2Proof.core (stepsOf (initEvents s.cfg)) t = .next u ∧
      t.pstate = .initialized ∧
      u = { s with
        pstate := .ready
        csAsserted := false
        dc := (driveAll (eventPrims (initEvents s.cfg)) s).dc
        trace := s.trace ++ (s.cfg.initTable.map fun r => tx r.op r.data ++ hold r.delay).flatten } ∧
      (∀ a, u.fbByte a = s.fbByte a)

/-- R171, and R170 with V-S4: one REFRESH in READY ends in IDLE with exactly six frames added to the trace, no Rst and no Wait,
the last one being the conversion of FB at acceptance; they carry `3 + |WIN_COL_DATA| + |WIN_ROW_DATA| + 8064` bytes, 8071
with the defaults. But for the trace, the deselected bus and the command/data line, everything is as it was, every framebuffer
byte included, so a second REFRESH emits the same events. That the run takes one step for each primitive is the model's choice
(log 1). -/
def Obligations.RefreshTransmitsTheFramebuffer : Prop :=
  ∀ s : State, Undisturbed s → s.cfg.accepts = true → s.seq = .idle → s.pstate = .ready →
    ∃ (t u : State) (evs : List BusEvent), exec .refresh s = .next t ∧
      Host.Core.run Sys2Proof.core (stepsOf evs) t = .next u ∧
      u = { s with csAsserted := false, dc := .data, trace := s.trace ++ evs } ∧
      evs = [.frame .cmd [s.cfg.ops.caset], .frame .data s.cfg.winColData, .frame .cmd [s.cfg.ops.raset],
             .frame .data s.cfg.winRowData, .frame .cmd [s.cfg.ops.ramwr], .frame .data (convert s)] ∧
      (convert s).length = 8064 ∧ (∀ e ∈ evs, ∃ dc bytes, e = .frame dc bytes) ∧
      (evs.map BusEvent.byteCount).sum = 3 + s.cfg.winColData.length + s.cfg.winRowData.length + 8064 ∧
      (s.cfg = Config.defaults → (evs.map BusEvent.byteCount).sum = 8071) ∧
      u.seq = .idle ∧ u.pstate = .ready ∧ (∀ a, u.fbByte a = s.fbByte a) ∧ u.status = s.status ∧ u.errword = s.errword ∧
      refreshEvents u.cfg (convert u) = evs

/-! ### Rules of the whole machine -/

/-- R25: PSTATE changes only at INIT acceptance, at INIT completion and at block power-on reset, and its STATUS code is 0, 1
or 2, never 3. A step that leaves PSTATE RESET has taken the offered word, and that word is INIT. The invariant rules out
states in which INIT's event list is empty. -/
def Obligations.ProtocolStateChangesOnlyThus : Prop :=
  (∀ s t : State, BlockInv s → step s = .next t → t.pstate ≠ s.pstate →
    (s.pstate = .reset ∧ t.pstate = .initialized ∧ s.seq = .idle ∧
      (∃ w, s.offered = w :: t.stream ∧ decode w = .command .init) ∧
      ∃ todo, t.seq = .run (initEvents s.cfg) 0 todo .setReady) ∨
    (s.pstate = .initialized ∧ t.pstate = .ready ∧ t.seq = .idle ∧
      ∃ k, s.seq = .run (initEvents s.cfg) k [] .setReady ∧ k = (initEvents s.cfg).length) ∨
    (t.pstate = .reset ∧ ∃ later, s.script = .powerOn :: later)) ∧
  PState.reset.code = 0#2 ∧ PState.initialized.code = 1#2 ∧ PState.ready.code = 2#2 ∧
  ∀ s : State, s.status.extractLsb' 0 2 = s.pstate.code ∧ s.status.extractLsb' 0 2 ≠ 3#2

/-- R29: PULSED is 0 in the reset state, the completion of RESET's event list sets it, nothing else sets it, and only block
power-on reset clears it. -/
def Obligations.PulsedChangesOnlyThus : Prop :=
  State.reset.pulsed = false ∧
  (∀ (s t : State) (k : Nat), s.seq = .run (resetEvents s.cfg) k [] .setPulsed → k = (resetEvents s.cfg).length →
    (∀ later, s.script ≠ .powerOn :: later) → step s = .next t → t.pulsed = true ∧ t.seq = .idle) ∧
  (∀ s t : State, BlockInv s → step s = .next t → t.pulsed ≠ s.pulsed →
    (t.pulsed = true ∧ t.seq = .idle ∧
      ∃ k, s.seq = .run (resetEvents s.cfg) k [] .setPulsed ∧ k = (resetEvents s.cfg).length) ∨
    (t.pulsed = false ∧ ∃ later, s.script = .powerOn :: later)) ∧
  ∀ (s t : State) (later : List Outside), s.script = .powerOn :: later → step s = .next t → t.pulsed = false

/-- A sticky bit is never cleared but by a block power-on reset, and a refusal that comes later overwrites LAST_CAUSE and
ERRWORD (R207). -/
def Obligations.StickyBitsStay : Prop :=
  (∀ s t : State, step s = .next t → (∀ later, s.script ≠ .powerOn :: later) →
    ∀ c, s.err c = true → t.err c = true) ∧
  ∀ (c c' : Cause) (w : Word) (s : State),
    (refuse c w s).err c' = (s.err c' || decide (c = c')) ∧ (refuse c w s).lastCause = some c ∧ (refuse c w s).errword = w

/-- The error registers change only in the refusal of the offered word (R27, R205): then ERRWORD is that word, LAST_CAUSE is the
cause that R200 gives that word in that protocol state, its sticky bit is set, the other two keep their values, and nothing
else of the block has changed, every framebuffer byte included. -/
def Obligations.ErrorRegistersRecordTheRefusedWord : Prop :=
  ∀ s t : State, step s = .next t → (∀ later, s.script ≠ .powerOn :: later) →
    (t.errword = s.errword ∧ t.lastCause = s.lastCause ∧ ∀ c, t.err c = s.err c) ∨
    (s.seq = .idle ∧ ∃ w c,
      s.offered = w :: t.stream ∧
      ((∃ why, decode w = .illegal why) ∧ c = .illegalCommand ∨
       decode w = .command .reset ∧ s.pstate ≠ .reset ∧ c = .sequenceViolation ∨
       decode w = .command .init ∧ (s.pstate ≠ .reset ∨ s.pulsed = false) ∧ c = .sequenceViolation ∨
       decode w = .command .refresh ∧ s.pstate ≠ .ready ∧ c = .notInitialized) ∧
      t = { s with
        errIllegal := s.errIllegal || decide (c = .illegalCommand)
        errSeq := s.errSeq || decide (c = .sequenceViolation)
        errNotInit := s.errNotInit || decide (c = .notInitialized)
        lastCause := some c
        errword := w
        stream := t.stream
        ack := t.ack
        script := t.script } ∧
      t.err c = true ∧ ∀ a, t.fbByte a = s.fbByte a)

/-- A framebuffer byte changes only when SETPX or CLEAR is accepted, or at a block power-on reset (R24, R60). -/
def Obligations.OnlyPixelCommandsWriteTheFramebuffer : Prop :=
  ∀ s t : State, step s = .next t → (∀ later, s.script ≠ .powerOn :: later) →
    (∃ a, t.fbByte a ≠ s.fbByte a) →
    s.seq = .idle ∧ ∃ w i,
      s.offered = w :: t.stream ∧
      decode w = .command i ∧ (i = .clear ∨ ∃ x y on, i = .setpx x y on)

/-- The parameters are fixed when the block is built: no step writes them (R28), a block power-on reset included. The latched
verdict of the check is the model's own bit (log 8); no step writes it either, and a power-on reset keeps it (log 12). -/
def Obligations.ParametersNeverChange : Prop :=
  ∀ s t : State, step s = .next t → t.cfg = s.cfg ∧ t.cfgAccepted = s.cfgAccepted

/-- Block power-on reset (R240, R241): in any state, also inside a frame, the next state has the values of R35; the unfinished
event list is gone, and PULSED = 0 asks for a new bring-up. What R35 leaves unspecified takes the model's form: each
framebuffer byte (log 3) and the command/data line (log 9) is a free value of the number of power-on resets, and that number
has grown by one, so the draw is a new one. -/
def Obligations.PowerOnResetRestoresTheResetValues : Prop :=
  ∀ (s : State) (later : List Outside), s.cfgAccepted = true → s.script = .powerOn :: later →
    ∃ t, step s = .next t ∧ t.pstate = .reset ∧ t.pulsed = false ∧ t.seq = .idle ∧ t.busy = false ∧
      t.errIllegal = false ∧ t.errSeq = false ∧ t.errNotInit = false ∧ t.lastCause = none ∧ t.errword = 0 ∧
      t.rstLevel = true ∧ t.csAsserted = false ∧ t.trace = [] ∧ t.status = 0 ∧ t.cfg = s.cfg ∧
      t.powerOns = s.powerOns + 1 ∧
      (∀ a, t.fbByte a = Config.powerOnByte t.powerOns a) ∧ t.dc = Config.powerOnDc t.powerOns

/-- R35: the values after block power-on reset, in the reset state of the machine. What R35 leaves unspecified takes the model's
form: the bytes of FB (log 3) and the command/data line (log 9) are free values, of which nothing is known. -/
def Obligations.ResetStateHasTheResetValues : Prop :=
  State.reset.pstate = .reset ∧ State.reset.pulsed = false ∧ State.reset.busy = false ∧ State.reset.seq = .idle ∧
  State.reset.errIllegal = false ∧ State.reset.errSeq = false ∧ State.reset.errNotInit = false ∧
  State.reset.lastCause = none ∧ State.reset.errword = 0 ∧ State.reset.rstLevel = true ∧
  State.reset.csAsserted = false ∧ State.reset.trace = [] ∧
  (∀ a, State.reset.fbByte a = Config.powerOnByte State.reset.powerOns a) ∧
  State.reset.dc = Config.powerOnDc State.reset.powerOns

/-- The layout of STATUS (R26), and `cmd_ready = ~BUSY` (R30). -/
def Obligations.StatusShowsItsFields : Prop :=
  ∀ s : State,
    s.status.extractLsb' 0 2 = s.pstate.code ∧ s.status.getLsbD 2 = s.busy ∧ s.status.getLsbD 2 = !s.cmdReady ∧
    s.status.getLsbD 3 = s.pulsed ∧ s.status.getLsbD 4 = s.errIllegal ∧ s.status.getLsbD 5 = s.errSeq ∧
    s.status.getLsbD 6 = s.errNotInit ∧ s.status.getLsbD 7 = false ∧
    s.status.extractLsb' 8 3 = causeCode s.lastCause ∧ s.status.extractLsb' 11 21 = 0#21 ∧
    causeCode none = 0#3 ∧ causeCode (some .illegalCommand) = 1#3 ∧ causeCode (some .sequenceViolation) = 2#3 ∧
    causeCode (some .notInitialized) = 3#3

/-! ### Invariants -/

/-- The invariant and the trace shape hold in the reset state, and right after power-on in a block built with any parameters
(R9 makes them an argument), those the check refuses included. -/
def Obligations.InvariantsHoldAtReset : Prop :=
  (BlockInv State.reset ∧ TraceShape State.reset) ∧ ∀ c : Config, BlockInv (State.build c) ∧ TraceShape (State.build c)

/-- Every step keeps the invariant: the framebuffer's canonical form, chip select asserted exactly inside a frame, the
sequencer position of one of the three event lists in its protocol state, REFRESH's burst equal to the conversion of FB,
LAST_CAUSE in agreement with the sticky bits, and the configuration accepted. -/
def Obligations.EveryStepKeepsTheInvariant : Prop :=
  ∀ s t : State, BlockInv s → step s = .next t → BlockInv t

/-- R176: INITIALIZED holds only while INIT runs, READY with PULSED = 0 does not occur, and at any acceptance (PSTATE,
PULSED) is one of the three rows of R175; for every state that meets the invariant. -/
def Obligations.AcceptanceRowsOfTheProtocolTable : Prop :=
  ∀ s : State, BlockInv s →
    (s.pstate = .initialized → s.busy = true ∧ ∃ k todo, s.seq = .run (initEvents s.cfg) k todo .setReady) ∧
    ¬(s.pstate = .ready ∧ s.pulsed = false) ∧
    (s.busy = false →
      (s.pstate = .reset ∧ s.pulsed = false) ∨ (s.pstate = .reset ∧ s.pulsed = true) ∨
      (s.pstate = .ready ∧ s.pulsed = true))

/-- Every step keeps the shape of the bus trace: reset pulses, then one initialization sequence, then whole frames, each one
after its window setup and with 8064 bytes (R145, R150, R152, R170, R242, R255, R256). -/
def Obligations.EveryStepKeepsTheTraceShape : Prop :=
  ∀ s t : State, BlockInv s → TraceShape s → step s = .next t → TraceShape t

/-- The block always goes on: from a state that meets the invariant, with its configuration accepted and no shortened hold,
every step answers a next state; no word, no protocol state and no transport stops it. -/
def Obligations.EveryStepGoesOn : Prop :=
  ∀ s : State, BlockInv s → s.cfgAccepted = true → (∀ later, s.script ≠ .shortHold :: later) → ∃ t, step s = .next t

/-! ### Configuration (spec/42_protocol_sequencer.md R151, R161) -/

/-- The check of INIT_TABLE says what R151 (a) to (d) say, with (b) and (c) read as log 8 has
it, the model's choice: the first OP_SLPOUT record has a delay and comes before the first
OP_DISPON record, an OP_DISPON record has a delay, those two are all the records with a delay, and there are an OP_MADCTL
and an OP_DFS record. -/
def Obligations.InitTableCheckMeansItsConstraints : Prop :=
  ∀ (ops : WireOps) (t : List InitRecord),
    initTableOk ops t = true ↔
      (∃ before r1 after r2,
        t = before ++ r1 :: after ∧ (∀ q ∈ before, q.op ≠ ops.slpout ∧ q.op ≠ ops.dispon) ∧
        r1.op = ops.slpout ∧ r1.op ≠ ops.dispon ∧ 0 < r1.delay ∧
        r2 ∈ after ∧ r2.op = ops.dispon ∧ 0 < r2.delay ∧
        t.filter (fun r => decide (0 < r.delay)) = [r1, r2]) ∧
      (∃ q ∈ t, q.op = ops.madctl) ∧ (∃ q ∈ t, q.op = ops.dfs)

/-- The window check of R161 under the inclusive (start, end) encoding (the spec's general knowledge, log 7): 14
column-groups and 192 rows. The defaults of R9 meet it. -/
def Obligations.WindowCheckMeansItsSize : Prop :=
  (∀ col row : List Byte,
    windowOk col row = true ↔
      ∃ cs ce rs re : Byte, col = [cs, ce] ∧ row = [rs, re] ∧
        (ce.toNat : Int) - cs.toNat + 1 = 14 ∧ (re.toNat : Int) - rs.toNat + 1 = 192) ∧
  windowOk Config.defaults.winColData Config.defaults.winRowData = true

/-- The check passes exactly the configurations that meet the bounds of R9 on W and H, the constraints of R151 on INIT_TABLE and
the window of R161 (its parts: InitTableCheckMeansItsConstraints and WindowCheckMeansItsSize, logs 7 and 8). A configuration
that fails the check is refused and not run (R151, R252): the block built with it makes no step, whatever
is offered to it. That the verdict is a latched bit, and that a state whose bit is not set is refused, is the model's choice
(log 8). -/
def Obligations.RefusedConfigurationDoesNotRun : Prop :=
  (∀ c : Config, c.accepts = true ↔
    (1 ≤ c.width ∧ c.width ≤ 384) ∧ (1 ≤ c.height ∧ c.height ≤ 168) ∧ initTableOk c.ops c.initTable = true ∧
      windowOk c.winColData c.winRowData = true) ∧
  (∀ (c : Config) (ws : List Word), c.accepts = false →
    step { State.build c with stream := ws } = .refused .badConfiguration) ∧
  ∀ s : State, s.cfgAccepted = false → step s = .refused .badConfiguration
end

