-- ==== Sys2Proof/Laws/State.lean ====
section
/-! SUPPORT. What each shared update does to each field of State, so that no later proof unfolds a record update. -/

namespace Sys2Proof.Machine

/-! ### One framebuffer byte, and all of them -/

@[simp] theorem fbWrite_cfg (s : State) (a : Nat) (v : Byte) : (s.fbWrite a v).cfg = s.cfg := rfl
@[simp] theorem fbWrite_cfgAccepted (s : State) (a : Nat) (v : Byte) : (s.fbWrite a v).cfgAccepted = s.cfgAccepted := rfl
@[simp] theorem fbWrite_pstate (s : State) (a : Nat) (v : Byte) : (s.fbWrite a v).pstate = s.pstate := rfl
@[simp] theorem fbWrite_pulsed (s : State) (a : Nat) (v : Byte) : (s.fbWrite a v).pulsed = s.pulsed := rfl
@[simp] theorem fbWrite_seq (s : State) (a : Nat) (v : Byte) : (s.fbWrite a v).seq = s.seq := rfl
@[simp] theorem fbWrite_errIllegal (s : State) (a : Nat) (v : Byte) : (s.fbWrite a v).errIllegal = s.errIllegal := rfl
@[simp] theorem fbWrite_errSeq (s : State) (a : Nat) (v : Byte) : (s.fbWrite a v).errSeq = s.errSeq := rfl
@[simp] theorem fbWrite_errNotInit (s : State) (a : Nat) (v : Byte) : (s.fbWrite a v).errNotInit = s.errNotInit := rfl
@[simp] theorem fbWrite_lastCause (s : State) (a : Nat) (v : Byte) : (s.fbWrite a v).lastCause = s.lastCause := rfl
@[simp] theorem fbWrite_errword (s : State) (a : Nat) (v : Byte) : (s.fbWrite a v).errword = s.errword := rfl
@[simp] theorem fbWrite_rstLevel (s : State) (a : Nat) (v : Byte) : (s.fbWrite a v).rstLevel = s.rstLevel := rfl
@[simp] theorem fbWrite_csAsserted (s : State) (a : Nat) (v : Byte) : (s.fbWrite a v).csAsserted = s.csAsserted := rfl
@[simp] theorem fbWrite_dc (s : State) (a : Nat) (v : Byte) : (s.fbWrite a v).dc = s.dc := rfl
@[simp] theorem fbWrite_trace (s : State) (a : Nat) (v : Byte) : (s.fbWrite a v).trace = s.trace := rfl
@[simp] theorem fbWrite_stream (s : State) (a : Nat) (v : Byte) : (s.fbWrite a v).stream = s.stream := rfl
@[simp] theorem fbWrite_ack (s : State) (a : Nat) (v : Byte) : (s.fbWrite a v).ack = s.ack := rfl
@[simp] theorem fbWrite_script (s : State) (a : Nat) (v : Byte) : (s.fbWrite a v).script = s.script := rfl
@[simp] theorem fbWrite_powerOns (s : State) (a : Nat) (v : Byte) : (s.fbWrite a v).powerOns = s.powerOns := rfl
@[simp] theorem fbWrite_fb (s : State) (a : Nat) (v : Byte) : (s.fbWrite a v).fb = s.fb.insert a v := rfl

@[simp] theorem fbZero_cfg (s : State) : (s.fbZero).cfg = s.cfg := rfl
@[simp] theorem fbZero_cfgAccepted (s : State) : (s.fbZero).cfgAccepted = s.cfgAccepted := rfl
@[simp] theorem fbZero_pstate (s : State) : (s.fbZero).pstate = s.pstate := rfl
@[simp] theorem fbZero_pulsed (s : State) : (s.fbZero).pulsed = s.pulsed := rfl
@[simp] theorem fbZero_seq (s : State) : (s.fbZero).seq = s.seq := rfl
@[simp] theorem fbZero_errIllegal (s : State) : (s.fbZero).errIllegal = s.errIllegal := rfl
@[simp] theorem fbZero_errSeq (s : State) : (s.fbZero).errSeq = s.errSeq := rfl
@[simp] theorem fbZero_errNotInit (s : State) : (s.fbZero).errNotInit = s.errNotInit := rfl
@[simp] theorem fbZero_lastCause (s : State) : (s.fbZero).lastCause = s.lastCause := rfl
@[simp] theorem fbZero_errword (s : State) : (s.fbZero).errword = s.errword := rfl
@[simp] theorem fbZero_rstLevel (s : State) : (s.fbZero).rstLevel = s.rstLevel := rfl
@[simp] theorem fbZero_csAsserted (s : State) : (s.fbZero).csAsserted = s.csAsserted := rfl
@[simp] theorem fbZero_dc (s : State) : (s.fbZero).dc = s.dc := rfl
@[simp] theorem fbZero_trace (s : State) : (s.fbZero).trace = s.trace := rfl
@[simp] theorem fbZero_stream (s : State) : (s.fbZero).stream = s.stream := rfl
@[simp] theorem fbZero_ack (s : State) : (s.fbZero).ack = s.ack := rfl
@[simp] theorem fbZero_script (s : State) : (s.fbZero).script = s.script := rfl
@[simp] theorem fbZero_powerOns (s : State) : (s.fbZero).powerOns = s.powerOns := rfl
@[simp] theorem fbZero_fb (s : State) : (s.fbZero).fb = zeroCells := rfl

/-! ### Refusal -/

@[simp] theorem setErr_cfg (c : Cause) (s : State) : (s.setErr c).cfg = s.cfg := by cases c <;> rfl
@[simp] theorem setErr_cfgAccepted (c : Cause) (s : State) : (s.setErr c).cfgAccepted = s.cfgAccepted := by cases c <;> rfl
@[simp] theorem setErr_fb (c : Cause) (s : State) : (s.setErr c).fb = s.fb := by cases c <;> rfl
@[simp] theorem setErr_pstate (c : Cause) (s : State) : (s.setErr c).pstate = s.pstate := by cases c <;> rfl
@[simp] theorem setErr_pulsed (c : Cause) (s : State) : (s.setErr c).pulsed = s.pulsed := by cases c <;> rfl
@[simp] theorem setErr_seq (c : Cause) (s : State) : (s.setErr c).seq = s.seq := by cases c <;> rfl
@[simp] theorem setErr_lastCause (c : Cause) (s : State) : (s.setErr c).lastCause = s.lastCause := by cases c <;> rfl
@[simp] theorem setErr_errword (c : Cause) (s : State) : (s.setErr c).errword = s.errword := by cases c <;> rfl
@[simp] theorem setErr_rstLevel (c : Cause) (s : State) : (s.setErr c).rstLevel = s.rstLevel := by cases c <;> rfl
@[simp] theorem setErr_csAsserted (c : Cause) (s : State) : (s.setErr c).csAsserted = s.csAsserted := by cases c <;> rfl
@[simp] theorem setErr_dc (c : Cause) (s : State) : (s.setErr c).dc = s.dc := by cases c <;> rfl
@[simp] theorem setErr_trace (c : Cause) (s : State) : (s.setErr c).trace = s.trace := by cases c <;> rfl
@[simp] theorem setErr_stream (c : Cause) (s : State) : (s.setErr c).stream = s.stream := by cases c <;> rfl
@[simp] theorem setErr_ack (c : Cause) (s : State) : (s.setErr c).ack = s.ack := by cases c <;> rfl
@[simp] theorem setErr_script (c : Cause) (s : State) : (s.setErr c).script = s.script := by cases c <;> rfl
@[simp] theorem setErr_powerOns (c : Cause) (s : State) : (s.setErr c).powerOns = s.powerOns := by cases c <;> rfl

@[simp] theorem refuse_cfg (c : Cause) (w : Word) (s : State) : (refuse c w s).cfg = s.cfg := by cases c <;> rfl
@[simp] theorem refuse_cfgAccepted (c : Cause) (w : Word) (s : State) : (refuse c w s).cfgAccepted = s.cfgAccepted := by cases c <;> rfl
@[simp] theorem refuse_fb (c : Cause) (w : Word) (s : State) : (refuse c w s).fb = s.fb := by cases c <;> rfl
@[simp] theorem refuse_pstate (c : Cause) (w : Word) (s : State) : (refuse c w s).pstate = s.pstate := by cases c <;> rfl
@[simp] theorem refuse_pulsed (c : Cause) (w : Word) (s : State) : (refuse c w s).pulsed = s.pulsed := by cases c <;> rfl
@[simp] theorem refuse_seq (c : Cause) (w : Word) (s : State) : (refuse c w s).seq = s.seq := by cases c <;> rfl
@[simp] theorem refuse_rstLevel (c : Cause) (w : Word) (s : State) : (refuse c w s).rstLevel = s.rstLevel := by cases c <;> rfl
@[simp] theorem refuse_csAsserted (c : Cause) (w : Word) (s : State) : (refuse c w s).csAsserted = s.csAsserted := by cases c <;> rfl
@[simp] theorem refuse_dc (c : Cause) (w : Word) (s : State) : (refuse c w s).dc = s.dc := by cases c <;> rfl
@[simp] theorem refuse_trace (c : Cause) (w : Word) (s : State) : (refuse c w s).trace = s.trace := by cases c <;> rfl
@[simp] theorem refuse_stream (c : Cause) (w : Word) (s : State) : (refuse c w s).stream = s.stream := by cases c <;> rfl
@[simp] theorem refuse_ack (c : Cause) (w : Word) (s : State) : (refuse c w s).ack = s.ack := by cases c <;> rfl
@[simp] theorem refuse_script (c : Cause) (w : Word) (s : State) : (refuse c w s).script = s.script := by cases c <;> rfl
@[simp] theorem refuse_powerOns (c : Cause) (w : Word) (s : State) : (refuse c w s).powerOns = s.powerOns := by cases c <;> rfl
@[simp] theorem refuse_errIllegal (c : Cause) (w : Word) (s : State) : (refuse c w s).errIllegal = (s.errIllegal || decide (c = .illegalCommand)) := by cases c <;> simp [refuse, State.setErr]
@[simp] theorem refuse_errSeq (c : Cause) (w : Word) (s : State) : (refuse c w s).errSeq = (s.errSeq || decide (c = .sequenceViolation)) := by cases c <;> simp [refuse, State.setErr]
@[simp] theorem refuse_errNotInit (c : Cause) (w : Word) (s : State) : (refuse c w s).errNotInit = (s.errNotInit || decide (c = .notInitialized)) := by cases c <;> simp [refuse, State.setErr]
@[simp] theorem refuse_lastCause (c : Cause) (w : Word) (s : State) : (refuse c w s).lastCause = some c := rfl
@[simp] theorem refuse_errword (c : Cause) (w : Word) (s : State) : (refuse c w s).errword = w := rfl

/-! ### The final update of a command -/

@[simp] theorem finish_cfg (f : Finish) (s : State) : (f.apply s).cfg = s.cfg := by cases f <;> rfl
@[simp] theorem finish_cfgAccepted (f : Finish) (s : State) : (f.apply s).cfgAccepted = s.cfgAccepted := by cases f <;> rfl
@[simp] theorem finish_fb (f : Finish) (s : State) : (f.apply s).fb = s.fb := by cases f <;> rfl
@[simp] theorem finish_seq (f : Finish) (s : State) : (f.apply s).seq = s.seq := by cases f <;> rfl
@[simp] theorem finish_errIllegal (f : Finish) (s : State) : (f.apply s).errIllegal = s.errIllegal := by cases f <;> rfl
@[simp] theorem finish_errSeq (f : Finish) (s : State) : (f.apply s).errSeq = s.errSeq := by cases f <;> rfl
@[simp] theorem finish_errNotInit (f : Finish) (s : State) : (f.apply s).errNotInit = s.errNotInit := by cases f <;> rfl
@[simp] theorem finish_lastCause (f : Finish) (s : State) : (f.apply s).lastCause = s.lastCause := by cases f <;> rfl
@[simp] theorem finish_errword (f : Finish) (s : State) : (f.apply s).errword = s.errword := by cases f <;> rfl
@[simp] theorem finish_rstLevel (f : Finish) (s : State) : (f.apply s).rstLevel = s.rstLevel := by cases f <;> rfl
@[simp] theorem finish_csAsserted (f : Finish) (s : State) : (f.apply s).csAsserted = s.csAsserted := by cases f <;> rfl
@[simp] theorem finish_dc (f : Finish) (s : State) : (f.apply s).dc = s.dc := by cases f <;> rfl
@[simp] theorem finish_trace (f : Finish) (s : State) : (f.apply s).trace = s.trace := by cases f <;> rfl
@[simp] theorem finish_stream (f : Finish) (s : State) : (f.apply s).stream = s.stream := by cases f <;> rfl
@[simp] theorem finish_ack (f : Finish) (s : State) : (f.apply s).ack = s.ack := by cases f <;> rfl
@[simp] theorem finish_script (f : Finish) (s : State) : (f.apply s).script = s.script := by cases f <;> rfl
@[simp] theorem finish_powerOns (f : Finish) (s : State) : (f.apply s).powerOns = s.powerOns := by cases f <;> rfl

/-! ### A completed primitive -/

@[simp] theorem drive_cfg (p : Prim) (s : State) : (p.drive s).cfg = s.cfg := by cases p <;> rfl
@[simp] theorem drive_cfgAccepted (p : Prim) (s : State) : (p.drive s).cfgAccepted = s.cfgAccepted := by cases p <;> rfl
@[simp] theorem drive_fb (p : Prim) (s : State) : (p.drive s).fb = s.fb := by cases p <;> rfl
@[simp] theorem drive_pstate (p : Prim) (s : State) : (p.drive s).pstate = s.pstate := by cases p <;> rfl
@[simp] theorem drive_pulsed (p : Prim) (s : State) : (p.drive s).pulsed = s.pulsed := by cases p <;> rfl
@[simp] theorem drive_seq (p : Prim) (s : State) : (p.drive s).seq = s.seq := by cases p <;> rfl
@[simp] theorem drive_errIllegal (p : Prim) (s : State) : (p.drive s).errIllegal = s.errIllegal := by cases p <;> rfl
@[simp] theorem drive_errSeq (p : Prim) (s : State) : (p.drive s).errSeq = s.errSeq := by cases p <;> rfl
@[simp] theorem drive_errNotInit (p : Prim) (s : State) : (p.drive s).errNotInit = s.errNotInit := by cases p <;> rfl
@[simp] theorem drive_lastCause (p : Prim) (s : State) : (p.drive s).lastCause = s.lastCause := by cases p <;> rfl
@[simp] theorem drive_errword (p : Prim) (s : State) : (p.drive s).errword = s.errword := by cases p <;> rfl
@[simp] theorem drive_trace (p : Prim) (s : State) : (p.drive s).trace = s.trace := by cases p <;> rfl
@[simp] theorem drive_stream (p : Prim) (s : State) : (p.drive s).stream = s.stream := by cases p <;> rfl
@[simp] theorem drive_ack (p : Prim) (s : State) : (p.drive s).ack = s.ack := by cases p <;> rfl
@[simp] theorem drive_script (p : Prim) (s : State) : (p.drive s).script = s.script := by cases p <;> rfl
@[simp] theorem drive_powerOns (p : Prim) (s : State) : (p.drive s).powerOns = s.powerOns := by cases p <;> rfl

/-! ### The start of an event list -/

@[simp] theorem startRun_cfg (evs : List BusEvent) (f : Finish) (s : State) : (startRun evs f s).cfg = s.cfg := by cases evs <;> simp [startRun]
@[simp] theorem startRun_cfgAccepted (evs : List BusEvent) (f : Finish) (s : State) : (startRun evs f s).cfgAccepted = s.cfgAccepted := by cases evs <;> simp [startRun]
@[simp] theorem startRun_fb (evs : List BusEvent) (f : Finish) (s : State) : (startRun evs f s).fb = s.fb := by cases evs <;> simp [startRun]
@[simp] theorem startRun_errIllegal (evs : List BusEvent) (f : Finish) (s : State) : (startRun evs f s).errIllegal = s.errIllegal := by cases evs <;> simp [startRun]
@[simp] theorem startRun_errSeq (evs : List BusEvent) (f : Finish) (s : State) : (startRun evs f s).errSeq = s.errSeq := by cases evs <;> simp [startRun]
@[simp] theorem startRun_errNotInit (evs : List BusEvent) (f : Finish) (s : State) : (startRun evs f s).errNotInit = s.errNotInit := by cases evs <;> simp [startRun]
@[simp] theorem startRun_lastCause (evs : List BusEvent) (f : Finish) (s : State) : (startRun evs f s).lastCause = s.lastCause := by cases evs <;> simp [startRun]
@[simp] theorem startRun_errword (evs : List BusEvent) (f : Finish) (s : State) : (startRun evs f s).errword = s.errword := by cases evs <;> simp [startRun]
@[simp] theorem startRun_rstLevel (evs : List BusEvent) (f : Finish) (s : State) : (startRun evs f s).rstLevel = s.rstLevel := by cases evs <;> simp [startRun]
@[simp] theorem startRun_csAsserted (evs : List BusEvent) (f : Finish) (s : State) : (startRun evs f s).csAsserted = s.csAsserted := by cases evs <;> simp [startRun]
@[simp] theorem startRun_dc (evs : List BusEvent) (f : Finish) (s : State) : (startRun evs f s).dc = s.dc := by cases evs <;> simp [startRun]
@[simp] theorem startRun_trace (evs : List BusEvent) (f : Finish) (s : State) : (startRun evs f s).trace = s.trace := by cases evs <;> simp [startRun]
@[simp] theorem startRun_stream (evs : List BusEvent) (f : Finish) (s : State) : (startRun evs f s).stream = s.stream := by cases evs <;> simp [startRun]
@[simp] theorem startRun_ack (evs : List BusEvent) (f : Finish) (s : State) : (startRun evs f s).ack = s.ack := by cases evs <;> simp [startRun]
@[simp] theorem startRun_script (evs : List BusEvent) (f : Finish) (s : State) : (startRun evs f s).script = s.script := by cases evs <;> simp [startRun]
@[simp] theorem startRun_powerOns (evs : List BusEvent) (f : Finish) (s : State) : (startRun evs f s).powerOns = s.powerOns := by cases evs <;> simp [startRun]

/-- A command with events starts its run and changes nothing else. -/
theorem startRun_of_ne_nil {evs : List BusEvent} (h : evs ≠ []) (f : Finish) (s : State) :
    startRun evs f s = { s with seq := .run evs 0 (primsAt evs 0) f } := by
  cases evs with
  | nil => exact absurd rfl h
  | cons e es => rfl

theorem startRun_cons (e : BusEvent) (es : List BusEvent) (f : Finish) (s : State) :
    startRun (e :: es) f s = { s with seq := .run (e :: es) 0 e.prims f } := rfl

/-! ### Block power-on reset -/

@[simp] theorem powerOnReset_cfg (s : State) : (powerOnReset s).cfg = s.cfg := rfl
@[simp] theorem powerOnReset_cfgAccepted (s : State) : (powerOnReset s).cfgAccepted = s.cfgAccepted := rfl
@[simp] theorem powerOnReset_stream (s : State) : (powerOnReset s).stream = s.stream := rfl
@[simp] theorem powerOnReset_ack (s : State) : (powerOnReset s).ack = s.ack := rfl
@[simp] theorem powerOnReset_script (s : State) : (powerOnReset s).script = s.script := rfl
@[simp] theorem powerOnReset_fb (s : State) : (powerOnReset s).fb = [] := rfl
@[simp] theorem powerOnReset_pstate (s : State) : (powerOnReset s).pstate = .reset := rfl
@[simp] theorem powerOnReset_pulsed (s : State) : (powerOnReset s).pulsed = false := rfl
@[simp] theorem powerOnReset_seq (s : State) : (powerOnReset s).seq = .idle := rfl
@[simp] theorem powerOnReset_errIllegal (s : State) : (powerOnReset s).errIllegal = false := rfl
@[simp] theorem powerOnReset_errSeq (s : State) : (powerOnReset s).errSeq = false := rfl
@[simp] theorem powerOnReset_errNotInit (s : State) : (powerOnReset s).errNotInit = false := rfl
@[simp] theorem powerOnReset_lastCause (s : State) : (powerOnReset s).lastCause = none := rfl
@[simp] theorem powerOnReset_errword (s : State) : (powerOnReset s).errword = 0 := rfl
@[simp] theorem powerOnReset_rstLevel (s : State) : (powerOnReset s).rstLevel = true := rfl
@[simp] theorem powerOnReset_csAsserted (s : State) : (powerOnReset s).csAsserted = false := rfl
@[simp] theorem powerOnReset_dc (s : State) : (powerOnReset s).dc = Config.powerOnDc (s.powerOns + 1) := rfl
@[simp] theorem powerOnReset_trace (s : State) : (powerOnReset s).trace = [] := rfl
@[simp] theorem powerOnReset_powerOns (s : State) : (powerOnReset s).powerOns = s.powerOns + 1 := rfl

end Sys2Proof.Machine
end

