-- ==== Sys2Proof/Laws/Bus.lean ====
section
/-! SUPPORT. The event lists: what they are made of, that none is empty, and their expansion into primitives. -/

namespace Sys2Proof.Machine

@[simp] theorem hold_zero : hold 0 = [] := rfl

theorem hold_pos {ms : Nat} (h : 0 < ms) : hold ms = [.wait ms] := by simp [hold, h]

@[simp] theorem tx_nil (op : Byte) : tx op [] = [.frame .cmd [op]] := rfl

@[simp] theorem tx_cons (op d : Byte) (ds : List Byte) :
    tx op (d :: ds) = [.frame .cmd [op], .frame .data (d :: ds)] := rfl

theorem tx_ne_nil (op : Byte) (data : List Byte) : tx op data ≠ [] := by simp [tx]

theorem resetEvents_ne_nil (c : Config) : resetEvents c ≠ [] := by simp [resetEvents]

theorem refreshEvents_ne_nil (c : Config) (wb : List Byte) : refreshEvents c wb ≠ [] := by
  simp [refreshEvents, setWindowEvents, tx]

theorem initTable_ne_nil {ops : WireOps} {t : List InitRecord} (h : initTableOk ops t = true) : t ≠ [] := by
  rintro rfl
  simp [initTableOk, slpoutOk] at h

theorem initEvents_ne_nil {c : Config} (h : c.accepts = true) : initEvents c ≠ [] := by
  simp only [Config.accepts, Bool.and_eq_true] at h
  have hne := initTable_ne_nil h.1.2
  cases ht : c.initTable with
  | nil => exact absurd ht hne
  | cons r rest => simp [initEvents, ht, InitRecord.events, tx]

/-- Every event has at least one primitive. -/
theorem prims_ne_nil (e : BusEvent) : e.prims ≠ [] := by
  cases e <;> simp [BusEvent.prims]

theorem primsAt_of_some {evs : List BusEvent} {k : Nat} {e : BusEvent} (h : evs[k]? = some e) : primsAt evs k = e.prims := by
  simp [primsAt, h]

theorem primsAt_of_none {evs : List BusEvent} {k : Nat} (h : evs[k]? = none) : primsAt evs k = [] := by
  simp [primsAt, h]

/-- At the start of an event all its primitives are still to come. -/
theorem todoOk_primsAt {evs : List BusEvent} {k : Nat} (h : k ≤ evs.length) : TodoOk evs k (primsAt evs k) := by
  unfold TodoOk
  split
  · rename_i hn
    exact ⟨Nat.le_antisymm h (List.getElem?_eq_none_iff.mp hn), primsAt_of_none hn⟩
  · rename_i e he
    rw [primsAt_of_some he]
    exact ⟨prims_ne_nil e, List.suffix_refl _⟩

/-- Inside a frame's expansion every primitive but the last is no deselection: one frame is one chip-select assertion
(R141, R166). -/
theorem frame_prims (dc : DC) (bytes : List Byte) :
    (BusEvent.frame dc bytes).prims = .sel true :: .mode dc :: (bytes.map Prim.xfer ++ [.sel false]) := rfl

@[simp] theorem eventPrims_nil : eventPrims [] = [] := rfl

@[simp] theorem eventPrims_cons (e : BusEvent) (es : List BusEvent) : eventPrims (e :: es) = e.prims ++ eventPrims es := rfl

/-- In an accepted configuration both window parameters have two bytes (R161). -/
theorem window_lengths {c : Config} (h : c.accepts = true) : c.winColData.length = 2 ∧ c.winRowData.length = 2 := by
  simp only [Config.accepts, windowOk, Bool.and_eq_true] at h
  have two : ∀ (n : Nat) (d : List Byte), rangeOk n d = true → d.length = 2 := by
    intro n d hd
    unfold rangeOk at hd
    split at hd
    · rfl
    · exact absurd hd (by simp)
  exact ⟨two _ _ h.2.1, two _ _ h.2.2⟩

/-- REFRESH's six frames (R171). -/
theorem refreshEvents_frames {c : Config} (h : c.accepts = true) (wb : List Byte) :
    refreshEvents c wb =
      [.frame .cmd [c.ops.caset], .frame .data c.winColData, .frame .cmd [c.ops.raset], .frame .data c.winRowData,
       .frame .cmd [c.ops.ramwr], .frame .data wb] := by
  have hl := window_lengths h
  have hc : c.winColData ≠ [] := by rintro he; simp [he] at hl
  have hr : c.winRowData ≠ [] := by rintro he; simp [he] at hl
  simp [refreshEvents, setWindowEvents, sendFrameEvents, tx, hc, hr]

end Sys2Proof.Machine
end

