-- ==== Sys2Proof/Laws/Memory.lean ====
section
/-! SUPPORT. The framebuffer store: read after write, other bytes untouched, the canonical form kept by every operation. -/

namespace Sys2Proof.Machine

theorem Memory.lookup_insert_self (m : Memory) (a : Nat) (b : Byte) : (m.insert a b).lookup a = some b := by
  induction m with
  | nil => simp [Memory.insert, Memory.lookup]
  | cons c rest ih =>
    obtain ⟨k, v⟩ := c
    simp only [Memory.insert]
    split
    · simp [Memory.lookup]
    · split
      · simp [Memory.lookup]
      · simp [Memory.lookup, ih, show k ≠ a by omega]

theorem Memory.lookup_insert_other (m : Memory) {a a' : Nat} (b : Byte) (h : a' ≠ a) :
    (m.insert a b).lookup a' = m.lookup a' := by
  induction m with
  | nil => simp [Memory.insert, Memory.lookup, h.symm]
  | cons c rest ih =>
    obtain ⟨k, v⟩ := c
    simp only [Memory.insert]
    split
    · simp [Memory.lookup, h.symm]
    · split
      · simp only [Memory.lookup, h.symm, if_false]
        rw [if_neg (by omega)]
      · simp [Memory.lookup, ih]

theorem Memory.wfFrom_mono {lo lo' : Nat} (m : Memory) (h : lo' ≤ lo) (hw : Memory.wfFrom lo m = true) :
    Memory.wfFrom lo' m = true := by
  cases m with
  | nil => rfl
  | cons c rest =>
    simp only [Memory.wfFrom, Bool.and_eq_true, decide_eq_true_eq] at hw ⊢
    exact ⟨⟨by omega, hw.1.2⟩, hw.2⟩

theorem Memory.wfFrom_insert {lo : Nat} (m : Memory) {a : Nat} (b : Byte) (hlo : lo ≤ a) (ha : a < fbBytes)
    (hw : Memory.wfFrom lo m = true) : Memory.wfFrom lo (m.insert a b) = true := by
  induction m generalizing lo with
  | nil => simp [Memory.insert, Memory.wfFrom, hlo, ha]
  | cons c rest ih =>
    obtain ⟨k, v⟩ := c
    simp only [Memory.wfFrom, Bool.and_eq_true, decide_eq_true_eq] at hw
    simp only [Memory.insert]
    split
    · simp only [Memory.wfFrom, Bool.and_eq_true, decide_eq_true_eq]
      exact ⟨⟨hlo, ha⟩, ⟨by omega, hw.1.2⟩, hw.2⟩
    · split
      · subst a
        simp only [Memory.wfFrom, Bool.and_eq_true, decide_eq_true_eq]
        exact ⟨⟨hlo, ha⟩, hw.2⟩
      · simp only [Memory.wfFrom, Bool.and_eq_true, decide_eq_true_eq]
        exact ⟨hw.1, ih (by omega) hw.2⟩

/-- A write keeps the canonical form. -/
theorem Memory.wf_insert (m : Memory) {a : Nat} (b : Byte) (ha : a < fbBytes) (hw : m.wf = true) :
    (m.insert a b).wf = true :=
  Memory.wfFrom_insert m b (Nat.zero_le a) ha hw

/-- In canonical form an offset below every listed one is not listed. -/
theorem Memory.lookup_below {lo a : Nat} (m : Memory) (hw : Memory.wfFrom lo m = true) (h : a < lo) : m.lookup a = none := by
  induction m generalizing lo with
  | nil => rfl
  | cons c rest ih =>
    obtain ⟨k, v⟩ := c
    simp only [Memory.wfFrom, Bool.and_eq_true, decide_eq_true_eq] at hw
    simp only [Memory.lookup, if_neg (show k ≠ a by omega)]
    exact ih hw.2 (by omega)

/-- Two canonical stores that list the same byte at every offset are the same list. -/
theorem Memory.ext_of_wfFrom {lo : Nat} (m m' : Memory) (hw : Memory.wfFrom lo m = true) (hw' : Memory.wfFrom lo m' = true)
    (h : ∀ a, m.lookup a = m'.lookup a) : m = m' := by
  induction m generalizing m' lo with
  | nil =>
    cases m' with
    | nil => rfl
    | cons c rest => simpa [Memory.lookup] using h c.1
  | cons c rest ih =>
    obtain ⟨k, v⟩ := c
    simp only [Memory.wfFrom, Bool.and_eq_true, decide_eq_true_eq] at hw
    cases m' with
    | nil => simpa [Memory.lookup] using h k
    | cons c' rest' =>
      obtain ⟨k', v'⟩ := c'
      simp only [Memory.wfFrom, Bool.and_eq_true, decide_eq_true_eq] at hw'
      have hk : k = k' := by
        rcases Nat.lt_trichotomy k k' with hlt | heq | hgt
        · have := h k
          simp [Memory.lookup, show k' ≠ k by omega, Memory.lookup_below rest' hw'.2 (show k < k' + 1 by omega)] at this
        · exact heq
        · have := h k'
          simp [Memory.lookup, show k ≠ k' by omega, Memory.lookup_below rest hw.2 (show k' < k + 1 by omega)] at this
      subst hk
      have hv : v = v' := by simpa [Memory.lookup] using h k
      subst hv
      refine congrArg _ (ih rest' hw.2 hw'.2 fun a => ?_)
      have := h a
      by_cases hka : k = a
      · subst hka
        rw [Memory.lookup_below rest hw.2 (by omega), Memory.lookup_below rest' hw'.2 (by omega)]
      · simpa [Memory.lookup, hka] using this

theorem lookup_map_zero (l : List Nat) (a : Nat) :
    Memory.lookup (l.map fun k => (k, 0#8)) a = if a ∈ l then some 0#8 else none := by
  induction l with
  | nil => simp [Memory.lookup]
  | cons k rest ih =>
    simp only [List.map_cons, Memory.lookup, ih, List.mem_cons]
    by_cases h : k = a
    · simp [h]
    · simp [h, Ne.symm h]

theorem lookup_zeroCells (a : Nat) : zeroCells.lookup a = if a < fbBytes then some 0#8 else none := by
  rw [zeroCells, lookup_map_zero]
  simp only [List.mem_range'_1, Nat.zero_le, true_and, Nat.zero_add]

theorem wfFrom_zeros (n lo : Nat) (h : lo + n ≤ fbBytes) :
    Memory.wfFrom lo ((List.range' lo n).map fun k => (k, 0#8)) = true := by
  induction n generalizing lo with
  | zero => rfl
  | succ n ih =>
    simp only [List.range'_succ, List.map_cons, Memory.wfFrom, Bool.and_eq_true, decide_eq_true_eq]
    exact ⟨⟨Nat.le_refl lo, by omega⟩, ih (lo + 1) (by omega)⟩

/-- CLEAR leaves the canonical form. -/
theorem wf_zeroCells : zeroCells.wf = true := by
  exact wfFrom_zeros fbBytes 0 (by omega)

/-- `FB[a]` after `FB[a] <- v` is `v`. -/
@[simp] theorem fbByte_fbWrite_self (s : State) (a : Nat) (v : Byte) : (s.fbWrite a v).fbByte a = v := by
  simp [State.fbByte, Memory.lookup_insert_self]

/-- `FB[a] <- v` leaves every other byte alone. -/
theorem fbByte_fbWrite_other (s : State) {a a' : Nat} (v : Byte) (h : a' ≠ a) :
    (s.fbWrite a v).fbByte a' = s.fbByte a' := by
  simp [State.fbByte, State.unwrittenByte, Memory.lookup_insert_other s.fb v h]

/-- After CLEAR every byte of the framebuffer is 0x00. -/
theorem fbByte_fbZero (s : State) {a : Nat} (h : a < fbBytes) : s.fbZero.fbByte a = 0#8 := by
  simp [State.fbByte, lookup_zeroCells, h]

/-- What FB reads as depends on the written bytes and the power-on draw alone. -/
theorem fbByte_congr {s t : State} (h : t.fb = s.fb) (hn : t.powerOns = s.powerOns) : t.fbByte = s.fbByte := by
  funext a
  simp [State.fbByte, State.unwrittenByte, h, hn]

end Sys2Proof.Machine
end

