-- ==== Sys2Proof/Laws/Convert.lean ====
section
/-! SUPPORT. CONVERT piece by piece: the length of each loop's output and where a byte of it stands. -/

namespace Sys2Proof.Machine

/-- In a concatenation of pieces of one length, entry `i * n + j` is entry `j` of piece `i`. -/
theorem getElem?_flatMap_const {α β : Type} (f : α → List β) (n : Nat) (hf : ∀ a, (f a).length = n) (l : List α)
    (i j : Nat) (hj : j < n) : (l.flatMap f)[i * n + j]? = l[i]?.bind fun a => (f a)[j]? := by
  induction l generalizing i with
  | nil => simp
  | cons a rest ih =>
    rw [List.flatMap_cons]
    cases i with
    | zero =>
      rw [List.getElem?_append_left (by rw [hf]; omega)]
      simp
    | succ i =>
      have hlen : (f a).length ≤ (i + 1) * n + j := by rw [hf, Nat.succ_mul]; omega
      rw [List.getElem?_append_right hlen, hf, show (i + 1) * n + j - n = i * n + j by rw [Nat.succ_mul]; omega, ih]
      simp

theorem length_flatMap_const {α β : Type} (f : α → List β) (n : Nat) (hf : ∀ a, (f a).length = n) (l : List α) :
    (l.flatMap f).length = l.length * n := by
  induction l with
  | nil => simp
  | cons a rest ih => simp [List.flatMap_cons, hf, ih, Nat.succ_mul, Nat.add_comm]

@[simp] theorem length_pair (b1 b2 : Byte) : (pair b1 b2).length = 2 := rfl

theorem length_packBand (fb : Nat → Byte) (i band : Nat) : (packBand fb i band).length = 2 := rfl

theorem length_packGroup (fb : Nat → Byte) (i g : Nat) :
    ((List.range' 0 3).flatMap fun k => packBand fb i (3 * g + k)).length = 6 := rfl

theorem length_packColumns (fb : Nat → Byte) (i : Nat) : (packColumns fb i).length = 42 := by
  rw [packColumns, length_flatMap_const _ 6 (length_packGroup fb i)]
  simp

/-- Grouping the bands in threes does not change their order: the bytes of band `b` stand at `2 b` and `2 b + 1` (R124). -/
theorem packColumns_getElem? (fb : Nat → Byte) (i : Nat) {band h : Nat} (hb : band < 21) (hh : h < 2) :
    (packColumns fb i)[band * 2 + h]? = (packBand fb i band)[h]? := by
  have hg : band * 2 + h = band / 3 * 6 + (band % 3 * 2 + h) := by omega
  rw [hg, packColumns, getElem?_flatMap_const _ 6 (length_packGroup fb i) _ _ _ (by omega)]
  rw [List.getElem?_range' (by omega : band / 3 < 7)]
  simp only [Option.bind_some]
  rw [getElem?_flatMap_const _ 2 (fun k => length_packBand fb i _) _ _ _ hh, List.getElem?_range' (by omega : band % 3 < 3)]
  simp only [Option.bind_some, Nat.one_mul, Nat.zero_add]
  rw [show 3 * (band / 3) + band % 3 = band by omega]

/-- Byte `h` of band `band` of column pair `p` (R124). -/
theorem convertBytes_getElem? (fb : Nat → Byte) {p band h : Nat} (hp : p < 192) (hb : band < 21) (hh : h < 2) :
    (convertBytes fb)[p * 42 + (band * 2 + h)]? = (packBand fb (2 * p) band)[h]? := by
  rw [convertBytes, getElem?_flatMap_const _ 42 (length_packColumns fb) _ _ _ (by omega), List.getElem?_range' hp]
  simp only [Option.bind_some, Nat.zero_add]
  exact packColumns_getElem? fb (2 * p) hb hh

theorem length_convertBytes (fb : Nat → Byte) : (convertBytes fb).length = wireBytes := by
  rw [convertBytes, length_flatMap_const _ 42 (length_packColumns fb)]
  simp [wireBytes, wireRows, wireColGroups, wireBytesPerGroup]

@[simp] theorem length_convert (s : State) : (convert s).length = wireBytes := length_convertBytes _

/-- The conversion of a state depends on the written bytes and the power-on draw alone. -/
theorem convert_congr {s t : State} (h : t.fb = s.fb) (hn : t.powerOns = s.powerOns) : convert t = convert s := by
  rw [convert, convert, fbByte_congr h hn]

/-- The bands of a column pair in order, without the grouping in threes (R124). -/
theorem packColumns_bands (fb : Nat → Byte) (i : Nat) :
    packColumns fb i = (List.range 21).flatMap fun band => packBand fb i band := by
  unfold packColumns
  simp [List.range'_succ, List.range_succ, List.flatMap_cons]

/-- Stepping by two over even numbers. -/
theorem flatMap_range'_two (n k : Nat) (f : Nat → List Byte) :
    (List.range' (2 * k) n 2).flatMap f = (List.range' k n).flatMap fun p => f (2 * p) := by
  induction n generalizing k with
  | zero => rfl
  | succ n ih =>
    rw [List.range'_succ, List.range'_succ, List.flatMap_cons, List.flatMap_cons, show 2 * k + 2 = 2 * (k + 1) by ring, ih]

end Sys2Proof.Machine
end

