-- ==== Sys2Proof/Laws/Encoding.lean ====
section
/-! SUPPORT. The fields of an encoded SETPX word, and the words of the other commands. -/

namespace Sys2Proof

/-- The fields of a word as numbers. -/
theorem field_values (w : Word) :
    (opField w).toNat = w.toNat / 2 ^ 28 ∧ (rsvField w).toNat = w.toNat / 2 ^ 25 % 2 ^ 3 ∧
      (zRsvField w).toNat = w.toNat % 2 ^ 28 ∧ onField w = decide (w.toNat / 2 ^ 24 % 2 = 1) ∧
      xField w = w.toNat / 2 ^ 12 % 2 ^ 12 ∧ yField w = w.toNat % 2 ^ 12 := by
  have := w.isLt
  refine ⟨?_, ?_, ?_, ?_, ?_, ?_⟩
  · simp only [opField, BitVec.extractLsb'_toNat, Nat.shiftRight_eq_div_pow]
    omega
  · simp [rsvField, BitVec.extractLsb'_toNat, Nat.shiftRight_eq_div_pow]
  · simp [zRsvField, BitVec.extractLsb'_toNat]
  · simp only [onField, BitVec.getLsbD, Nat.testBit_eq_decide_div_mod_eq]
  · simp [xField, BitVec.extractLsb'_toNat, Nat.shiftRight_eq_div_pow]
  · simp [yField, BitVec.extractLsb'_toNat]

theorem encode_setpx_op (x y : Nat) (on : Bool) : opField (encode (.setpx x y on)) = 0x1#4 := by
  ext k hk
  simp only [opField, encode, BitVec.getElem_extractLsb', BitVec.getLsbD_append]
  interval_cases k <;> simp

theorem encode_setpx_rsv (x y : Nat) (on : Bool) : rsvField (encode (.setpx x y on)) = 0#3 := by
  ext k hk
  simp only [rsvField, encode, BitVec.getElem_extractLsb', BitVec.getLsbD_append]
  interval_cases k <;> simp

theorem encode_setpx_on (x y : Nat) (on : Bool) : onField (encode (.setpx x y on)) = on := by
  simp only [onField, encode, BitVec.getLsbD_append]
  simp

theorem encode_setpx_x (x y : Nat) (on : Bool) (hx : x < 4096) : xField (encode (.setpx x y on)) = x := by
  have h : (encode (.setpx x y on)).extractLsb' 12 12 = BitVec.ofNat 12 x := by
    ext k hk
    simp only [encode, BitVec.getElem_extractLsb', BitVec.getLsbD_append]
    have h1 : ¬ (12 + k < 12) := by omega
    have h2 : 12 + k - 12 = k := by omega
    simp [h2, hk]
  rw [xField, h, BitVec.toNat_ofNat, Nat.mod_eq_of_lt hx]

theorem encode_setpx_y (x y : Nat) (on : Bool) (hy : y < 4096) : yField (encode (.setpx x y on)) = y := by
  have h : (encode (.setpx x y on)).extractLsb' 0 12 = BitVec.ofNat 12 y := by
    ext k hk
    simp only [encode, BitVec.getElem_extractLsb', BitVec.getLsbD_append]
    simp [hk]
  rw [yField, h, BitVec.toNat_ofNat, Nat.mod_eq_of_lt hy]

@[simp] theorem encode_clear : encode .clear = 0x20000000#32 := by decide

@[simp] theorem encode_reset : encode .reset = 0x30000000#32 := by decide

@[simp] theorem encode_init : encode .init = 0x40000000#32 := by decide

@[simp] theorem encode_refresh : encode .refresh = 0x50000000#32 := by decide

end Sys2Proof
end

