-- ==== Sys2Proof/Laws/Exec.lean ====
section
/-! SUPPORT. What executing one instruction can do, said once: `Effect i s t` lists every case, and `exec` answers a next
state exactly in those cases. -/

namespace Sys2Proof.Machine

@[simp] theorem whenIdle_of_idle {f : State → Host.Outcome State Fault Refusal} {s : State} (h : s.seq = .idle) :
    whenIdle f s = f s := by
  simp [whenIdle, h]

theorem whenIdle_of_busy {f : State → Host.Outcome State Fault Refusal} {s : State} (h : s.seq ≠ .idle) :
    whenIdle f s = .next s := by
  unfold whenIdle
  split
  · exact absurd ‹_› h
  · rfl

/-- A busy block holds the command: whatever the instruction, nothing changes. -/
theorem exec_of_busy (i : Instr) {s : State} (h : s.seq ≠ .idle) : exec i s = .next s := by
  cases i with
  | setpx x y on => exact whenIdle_of_busy h
  | clear => exact whenIdle_of_busy (f := fun s => .next s.fbZero) h
  | reset => exact whenIdle_of_busy h
  | init => exact whenIdle_of_busy h
  | refresh => exact whenIdle_of_busy h

/-- Every effect of an instruction accepted in IDLE. -/
inductive Effect : Instr → State → State → Prop where
  | outOfRange {x y : Nat} {on : Bool} {s : State} : inRange s.cfg x y = false → Effect (.setpx x y on) s s
  | pixel {x y : Nat} {on : Bool} {s : State} : inRange s.cfg x y = true → pixelOffset x y < fbBytes →
      Effect (.setpx x y on) s (s.fbWrite (pixelOffset x y) (setPixelByte (s.fbByte (pixelOffset x y)) y on))
  | cleared {s : State} : Effect .clear s s.fbZero
  | resetStarts {s : State} : s.pstate = .reset → Effect .reset s (startRun (resetEvents s.cfg) .setPulsed s)
  | resetRefused {s : State} : s.pstate ≠ .reset → Effect .reset s (refuse .sequenceViolation (encode .reset) s)
  | initStarts {s : State} : s.pstate = .reset → s.pulsed = true →
      Effect .init s (startRun (initEvents s.cfg) .setReady { s with pstate := .initialized })
  | initRefused {s : State} : ¬(s.pstate = .reset ∧ s.pulsed = true) →
      Effect .init s (refuse .sequenceViolation (encode .init) s)
  | refreshStarts {s : State} : s.pstate = .ready →
      Effect .refresh s (startRun (refreshEvents s.cfg (convert s)) .nothing s)
  | refreshRefused {s : State} : s.pstate ≠ .ready → Effect .refresh s (refuse .notInitialized (encode .refresh) s)

theorem exec_idle_effect {i : Instr} {s t : State} (h : s.seq = .idle) (he : exec i s = .next t) : Effect i s t := by
  cases i with
  | setpx x y on =>
    simp only [exec, execSetpx, whenIdle_of_idle h, setPixel] at he
    split at he
    · split at he
      · cases he
        exact .pixel ‹_› ‹_›
      · cases he
    · cases he
      exact .outOfRange (Bool.not_eq_true _ ▸ ‹_›)
  | clear =>
    simp only [exec, execClear, whenIdle_of_idle h] at he
    cases he
    exact .cleared
  | reset =>
    simp only [exec, execReset, whenIdle_of_idle h, acceptReset] at he
    split at he <;> cases he
    · exact .resetStarts ‹_›
    · exact .resetRefused ‹_›
  | init =>
    simp only [exec, execInit, whenIdle_of_idle h, acceptInit] at he
    split at he <;> cases he
    · rename_i hc
      exact .initStarts hc.1 hc.2
    · exact .initRefused ‹_›
  | refresh =>
    simp only [exec, execRefresh, whenIdle_of_idle h, acceptRefresh] at he
    split at he <;> cases he
    · exact .refreshStarts ‹_›
    · exact .refreshRefused ‹_›

theorem exec_of_effect {i : Instr} {s t : State} (h : s.seq = .idle) (he : Effect i s t) : exec i s = .next t := by
  cases he with
  | outOfRange hr => simp [exec, execSetpx, whenIdle_of_idle h, setPixel, hr]
  | pixel hr ha => simp [exec, execSetpx, whenIdle_of_idle h, setPixel, hr, ha]
  | cleared => simp [exec, execClear, whenIdle_of_idle h]
  | resetStarts hp => simp [exec, execReset, whenIdle_of_idle h, acceptReset, hp]
  | resetRefused hp => simp [exec, execReset, whenIdle_of_idle h, acceptReset, hp]
  | initStarts hp hq => simp [exec, execInit, whenIdle_of_idle h, acceptInit, hp, hq]
  | initRefused hp => simp only [exec, execInit, whenIdle_of_idle h, acceptInit, if_neg hp]
  | refreshStarts hp => simp [exec, execRefresh, whenIdle_of_idle h, acceptRefresh, hp]
  | refreshRefused hp => simp [exec, execRefresh, whenIdle_of_idle h, acceptRefresh, hp]

/-- The one way an instruction stops: SETPX at an offset that does not exist. -/
theorem exec_fault {i : Instr} {s : State} {f : Fault} (h : exec i s = .fault f) :
    ∃ x y on, i = .setpx x y on ∧ s.seq = .idle ∧ inRange s.cfg x y = true ∧ fbBytes ≤ pixelOffset x y ∧
      f = .fbOffset (pixelOffset x y) := by
  by_cases hb : s.seq = .idle
  · cases i with
    | setpx x y on =>
      simp only [exec, execSetpx, whenIdle_of_idle hb, setPixel] at h
      split at h
      · split at h
        · cases h
        · cases h
          exact ⟨x, y, on, rfl, hb, ‹_›, by omega, rfl⟩
      · cases h
    | clear => simp [exec, execClear, whenIdle_of_idle hb] at h
    | reset =>
      simp only [exec, execReset, whenIdle_of_idle hb, acceptReset] at h
      split at h <;> cases h
    | init =>
      simp only [exec, execInit, whenIdle_of_idle hb, acceptInit] at h
      split at h <;> cases h
    | refresh =>
      simp only [exec, execRefresh, whenIdle_of_idle hb, acceptRefresh] at h
      split at h <;> cases h
  · simp [exec_of_busy i hb] at h

/-- No instruction is refused by the model. -/
theorem exec_never_refused (i : Instr) (s : State) (r : Refusal) : exec i s ≠ .refused r := by
  intro h
  by_cases hb : s.seq = .idle
  · cases i with
    | setpx x y on =>
      simp only [exec, execSetpx, whenIdle_of_idle hb, setPixel] at h
      split at h
      · split at h <;> cases h
      · cases h
    | clear => simp [exec, execClear, whenIdle_of_idle hb] at h
    | reset =>
      simp only [exec, execReset, whenIdle_of_idle hb, acceptReset] at h
      split at h <;> cases h
    | init =>
      simp only [exec, execInit, whenIdle_of_idle hb, acceptInit] at h
      split at h <;> cases h
    | refresh =>
      simp only [exec, execRefresh, whenIdle_of_idle hb, acceptRefresh] at h
      split at h <;> cases h
  · simp [exec_of_busy i hb] at h

/-- In an accepted configuration an in-range pixel lies inside the framebuffer (R101). -/
theorem pixelOffset_lt {c : Config} {x y : Nat} (hc : c.accepts = true) (hr : inRange c x y = true) :
    pixelOffset x y < fbBytes := by
  simp only [Config.accepts, sizeOk, Bool.and_eq_true, decide_eq_true_eq] at hc
  simp only [inRange, Bool.and_eq_true, decide_eq_true_eq] at hr
  simp only [pixelOffset, fbBytes, panelColumns, panelBands, Nat.shiftRight_eq_div_pow]
  have hsize := hc.1.1
  simp only [panelColumns, panelBands] at hsize
  omega

end Sys2Proof.Machine
end

