-- ==== Sys2Proof/Laws/Step.lean ====
section
/-! SUPPORT. What one step can do, said once: the outside world changes the inputs, then the block does one of four things. -/

namespace Sys2Proof.Machine

/-- `s0` is `s` with other inputs. -/
def SameBlock (s s0 : State) : Prop :=
  ∃ stream ack script, s0 = { s with stream := stream, ack := ack, script := script }

/-- The block's own step, case by case. -/
inductive Moved (s t : State) : Prop where
  /-- RUN: the sequencer goes on. -/
  | progress (evs : List BusEvent) (k : Nat) (todo : List Prim) (fin : Finish) :
      s.seq = .run evs k todo fin → t = seqStep evs k todo fin s → Moved s t
  /-- IDLE, and no command is offered. -/
  | noCommand : s.seq = .idle → s.stream = [] → t = s → Moved s t
  /-- IDLE, and the offered word is illegal. -/
  | illegalWord (w : Word) (rest : List Word) (why : Illegal) : s.seq = .idle → s.stream = w :: rest →
      decode w = .illegal why → t = refuse .illegalCommand w { s with stream := rest } → Moved s t
  /-- IDLE, and the offered word is a command. -/
  | command (w : Word) (rest : List Word) (i : Instr) : s.seq = .idle → s.stream = w :: rest →
      decode w = .command i → Effect i { s with stream := rest } t → Moved s t

theorem act_cases {s t : State} (h : act s = .next t) : Moved s t := by
  unfold act at h
  split at h
  · cases h
    exact .progress _ _ _ _ ‹_› rfl
  · split at h
    · cases h
      exact .noCommand ‹_› ‹_› rfl
    · rename_i _ hs _ w rest hst
      unfold accept at h
      split at h
      · cases h
        exact .illegalWord w rest _ hs hst ‹_› rfl
      · exact .command w rest _ hs hst ‹_› (exec_idle_effect hs h)

/-- A next state comes from a block power-on reset, or from the block's own step after a change of the inputs only. -/
theorem step_cases {s t : State} (h : step s = .next t) :
    s.cfgAccepted = true ∧
      ((∃ rest, s.script = .powerOn :: rest ∧ t = powerOnReset { s with script := rest }) ∨
       ((∀ rest, s.script ≠ .powerOn :: rest) ∧
        ∃ s0, SameBlock s s0 ∧ s0.stream = s.offered ∧ Moved s0 t)) := by
  unfold step at h
  split at h
  · refine ⟨‹_›, ?_⟩
    unfold runStep at h
    split at h
    · rename_i hs
      refine .inr ⟨by simp [hs], s, ⟨s.stream, s.ack, s.script, rfl⟩, by simp [State.offered, hs], act_cases h⟩
    · rename_i e rest hs
      unfold outside at h
      split at h
      · exact .inr ⟨by simp [hs], _, ⟨_, _, _, rfl⟩, by simp [State.offered, hs], act_cases h⟩
      · exact .inr ⟨by simp [hs], _, ⟨_, _, _, rfl⟩, by simp [State.offered, hs], act_cases h⟩
      · exact .inr ⟨by simp [hs], _, ⟨_, _, _, rfl⟩, by simp [State.offered, hs], act_cases h⟩
      · split at h
        · cases h
        · exact .inr ⟨by simp [hs], _, ⟨_, _, _, rfl⟩, by simp [State.offered, hs], act_cases h⟩
      · cases h
        exact .inl ⟨rest, hs, rfl⟩
  · cases h

/-- The sequencer's step, case by case. -/
inductive Walked (evs : List BusEvent) (k : Nat) (todo : List Prim) (fin : Finish) (s t : State) : Prop where
  /-- The list is exhausted: `fin` is applied. -/
  | finished : evs[k]? = none → t = { fin.apply s with seq := .idle } → Walked evs k todo fin s t
  /-- The transport does not acknowledge. -/
  | waiting (e : BusEvent) : evs[k]? = some e → s.ack = false → t = s → Walked evs k todo fin s t
  /-- A primitive that is not the event's last is acknowledged. -/
  | advanced (e : BusEvent) (p q : Prim) (rest : List Prim) : evs[k]? = some e → s.ack = true → todo = p :: q :: rest →
      t = { p.drive s with seq := .run evs k (q :: rest) fin } → Walked evs k todo fin s t
  /-- The event's last primitive is acknowledged. -/
  | completed (e : BusEvent) (p : Prim) : evs[k]? = some e → s.ack = true → todo = [p] →
      t = completeEvent evs k fin e (p.drive s) → Walked evs k todo fin s t
  /-- No primitive is left although the event is not past (no reachable position). -/
  | nothingLeft (e : BusEvent) : evs[k]? = some e → s.ack = true → todo = [] → t = completeEvent evs k fin e s →
      Walked evs k todo fin s t

theorem seqStep_cases (evs : List BusEvent) (k : Nat) (todo : List Prim) (fin : Finish) (s : State) :
    Walked evs k todo fin s (seqStep evs k todo fin s) := by
  unfold seqStep
  split
  · exact .finished ‹_› rfl
  · split
    · unfold acknowledge
      split
      · exact .nothingLeft _ ‹_› ‹_› rfl rfl
      · exact .completed _ _ ‹_› ‹_› rfl rfl
      · exact .advanced _ _ _ _ ‹_› ‹_› rfl rfl
    · exact .waiting _ ‹_› (Bool.eq_false_iff.mpr ‹_›) rfl

/-- The sequencer changes the protocol state, PULSED, the position, the lines and the trace, and nothing else. -/
theorem seqStep_keeps {evs : List BusEvent} {k : Nat} {todo : List Prim} {fin : Finish} {s t : State}
    (h : Walked evs k todo fin s t) :
    t = { s with pstate := t.pstate, pulsed := t.pulsed, seq := t.seq, rstLevel := t.rstLevel,
                 csAsserted := t.csAsserted, dc := t.dc, trace := t.trace } := by
  cases h with
  | finished _ ht => subst ht; cases fin <;> rfl
  | waiting _ _ _ ht => subst ht; rfl
  | advanced _ p _ _ _ _ _ ht => subst ht; cases p <;> rfl
  | completed _ p _ _ _ ht => subst ht; cases p <;> rfl
  | nothingLeft _ _ _ _ ht => subst ht; rfl

@[simp] theorem seqStep_cfg (evs : List BusEvent) (k : Nat) (todo : List Prim) (fin : Finish) (s : State) :
    (seqStep evs k todo fin s).cfg = s.cfg := by
  rw [seqStep_keeps (seqStep_cases evs k todo fin s)]

@[simp] theorem seqStep_cfgAccepted (evs : List BusEvent) (k : Nat) (todo : List Prim) (fin : Finish) (s : State) :
    (seqStep evs k todo fin s).cfgAccepted = s.cfgAccepted := by
  rw [seqStep_keeps (seqStep_cases evs k todo fin s)]

@[simp] theorem seqStep_fb (evs : List BusEvent) (k : Nat) (todo : List Prim) (fin : Finish) (s : State) :
    (seqStep evs k todo fin s).fb = s.fb := by
  rw [seqStep_keeps (seqStep_cases evs k todo fin s)]

@[simp] theorem seqStep_errIllegal (evs : List BusEvent) (k : Nat) (todo : List Prim) (fin : Finish) (s : State) :
    (seqStep evs k todo fin s).errIllegal = s.errIllegal := by
  rw [seqStep_keeps (seqStep_cases evs k todo fin s)]

@[simp] theorem seqStep_errSeq (evs : List BusEvent) (k : Nat) (todo : List Prim) (fin : Finish) (s : State) :
    (seqStep evs k todo fin s).errSeq = s.errSeq := by
  rw [seqStep_keeps (seqStep_cases evs k todo fin s)]

@[simp] theorem seqStep_errNotInit (evs : List BusEvent) (k : Nat) (todo : List Prim) (fin : Finish) (s : State) :
    (seqStep evs k todo fin s).errNotInit = s.errNotInit := by
  rw [seqStep_keeps (seqStep_cases evs k todo fin s)]

@[simp] theorem seqStep_lastCause (evs : List BusEvent) (k : Nat) (todo : List Prim) (fin : Finish) (s : State) :
    (seqStep evs k todo fin s).lastCause = s.lastCause := by
  rw [seqStep_keeps (seqStep_cases evs k todo fin s)]

@[simp] theorem seqStep_errword (evs : List BusEvent) (k : Nat) (todo : List Prim) (fin : Finish) (s : State) :
    (seqStep evs k todo fin s).errword = s.errword := by
  rw [seqStep_keeps (seqStep_cases evs k todo fin s)]

@[simp] theorem seqStep_stream (evs : List BusEvent) (k : Nat) (todo : List Prim) (fin : Finish) (s : State) :
    (seqStep evs k todo fin s).stream = s.stream := by
  rw [seqStep_keeps (seqStep_cases evs k todo fin s)]

@[simp] theorem seqStep_ack (evs : List BusEvent) (k : Nat) (todo : List Prim) (fin : Finish) (s : State) :
    (seqStep evs k todo fin s).ack = s.ack := by
  rw [seqStep_keeps (seqStep_cases evs k todo fin s)]

@[simp] theorem seqStep_script (evs : List BusEvent) (k : Nat) (todo : List Prim) (fin : Finish) (s : State) :
    (seqStep evs k todo fin s).script = s.script := by
  rw [seqStep_keeps (seqStep_cases evs k todo fin s)]

@[simp] theorem seqStep_powerOns (evs : List BusEvent) (k : Nat) (todo : List Prim) (fin : Finish) (s : State) :
    (seqStep evs k todo fin s).powerOns = s.powerOns := by
  rw [seqStep_keeps (seqStep_cases evs k todo fin s)]

/-- A change of the inputs leaves the block alone. -/
theorem SameBlock.fields {s s0 : State} (h : SameBlock s s0) :
    s0.cfg = s.cfg ∧ s0.cfgAccepted = s.cfgAccepted ∧ s0.fb = s.fb ∧ s0.powerOns = s.powerOns ∧ s0.pstate = s.pstate ∧
      s0.pulsed = s.pulsed ∧ s0.seq = s.seq ∧ (∀ c, s0.err c = s.err c) ∧ s0.lastCause = s.lastCause ∧
      s0.errword = s.errword ∧ s0.rstLevel = s.rstLevel ∧ s0.csAsserted = s.csAsserted ∧ s0.dc = s.dc ∧
      s0.trace = s.trace := by
  obtain ⟨a, b, c, rfl⟩ := h
  exact ⟨rfl, rfl, rfl, rfl, rfl, rfl, rfl, fun c => by cases c <;> rfl, rfl, rfl, rfl, rfl, rfl, rfl⟩

/-! ### The sticky bits through each operation -/

@[simp] theorem err_seqStep (evs : List BusEvent) (k : Nat) (todo : List Prim) (fin : Finish) (s : State) (c : Cause) :
    (seqStep evs k todo fin s).err c = s.err c := by
  cases c <;> simp [State.err]

@[simp] theorem err_startRun (evs : List BusEvent) (fin : Finish) (s : State) (c : Cause) :
    (startRun evs fin s).err c = s.err c := by
  cases c <;> simp [State.err]

/-- A refusal sets the bit of its cause and leaves the others (R205, R207). -/
theorem err_refuse (c c' : Cause) (w : Word) (s : State) : (refuse c w s).err c' = (s.err c' || decide (c = c')) := by
  cases c <;> cases c' <;> simp [State.err]

/-! ### What a sequencer step does to the protocol state and to the trace -/

/-- PSTATE and PULSED change only where the list is exhausted and `fin` is applied. -/
theorem seqStep_protocol (evs : List BusEvent) (k : Nat) (todo : List Prim) (fin : Finish) (s : State) :
    ((seqStep evs k todo fin s).pstate = s.pstate ∧ (seqStep evs k todo fin s).pulsed = s.pulsed) ∨
      (evs[k]? = none ∧ seqStep evs k todo fin s = { fin.apply s with seq := .idle }) := by
  cases seqStep_cases evs k todo fin s with
  | finished h1 h2 => exact .inr ⟨h1, h2⟩
  | waiting _ _ _ ht => left; rw [ht]; simp
  | advanced _ _ _ _ _ _ _ ht => left; rw [ht]; simp
  | completed _ _ _ _ _ ht => left; rw [ht]; simp [completeEvent]
  | nothingLeft _ _ _ _ ht => left; rw [ht]; simp [completeEvent]

/-- What has been emitted and what is still to be emitted together do not change. -/
theorem seqStep_trace_pending {evs : List BusEvent} {k : Nat} {todo : List Prim} {fin : Finish} {s : State}
    (hs : s.seq = .run evs k todo fin) :
    (seqStep evs k todo fin s).trace ++ (seqStep evs k todo fin s).pending = s.trace ++ s.pending := by
  have hd : ∀ e, evs[k]? = some e → evs.drop k = e :: evs.drop (k + 1) := by
    intro e he
    obtain ⟨hl, rfl⟩ := List.getElem?_eq_some_iff.mp he
    exact List.drop_eq_getElem_cons hl
  cases seqStep_cases evs k todo fin s with
  | finished h1 h2 =>
    rw [h2]
    simpa [State.pending, hs] using List.getElem?_eq_none_iff.mp h1
  | waiting _ _ _ ht => rw [ht]
  | advanced _ _ _ _ _ _ _ ht => rw [ht]; simp [State.pending, hs]
  | completed _ _ he _ _ ht => rw [ht]; simp [completeEvent, State.pending, hs, hd _ he]
  | nothingLeft _ he _ _ ht => rw [ht]; simp [completeEvent, State.pending, hs, hd _ he]

/-- What the running command has emitted stays the end of the trace. -/
theorem seqStep_emitted {evs : List BusEvent} {k : Nat} {todo : List Prim} {fin : Finish} {s : State}
    (hs : s.seq = .run evs k todo fin) (h : s.emitted <:+ s.trace) :
    (seqStep evs k todo fin s).emitted <:+ (seqStep evs k todo fin s).trace := by
  simp only [State.emitted, hs] at h
  have grow : ∀ e, evs[k]? = some e → evs.take (k + 1) <:+ s.trace ++ [e] := by
    intro e he
    obtain ⟨p, hp⟩ := h
    rw [List.take_add_one, he]
    exact ⟨p, by rw [← hp]; simp⟩
  cases seqStep_cases evs k todo fin s with
  | finished _ h2 => rw [h2]; simp [State.emitted]
  | waiting _ _ _ ht => rw [ht]; simpa [State.emitted, hs] using h
  | advanced _ _ _ _ _ _ _ ht => rw [ht]; simpa [State.emitted] using h
  | completed _ _ he _ _ ht => rw [ht]; simpa [completeEvent, State.emitted] using grow _ he
  | nothingLeft _ he _ _ ht => rw [ht]; simpa [completeEvent, State.emitted] using grow _ he

end Sys2Proof.Machine
end

