-- ==== Sys2Proof/Laws/Invariant.lean ====
section
/-! SUPPORT. The pieces of the block's invariant: what a change of the inputs, a refusal and the start of an event list do to
it. -/

namespace Sys2Proof.Machine

/-- The inputs do not matter to the invariant. -/
theorem BlockInv.inputs {s s0 : State} (h : SameBlock s s0) (hi : BlockInv s) : BlockInv s0 := by
  obtain ⟨a, b, c, rfl⟩ := h
  exact ⟨hi.config, hi.memory, hi.pulsed, hi.position, hi.chipSelect, hi.errors⟩

/-- A refusal keeps the invariant, because it sets the bit of the cause it records (R205). -/
theorem BlockInv.refuse {s : State} (hi : BlockInv s) (c : Cause) (w : Word) : BlockInv (refuse c w s) := by
  cases c <;> exact ⟨hi.config, hi.memory, hi.pulsed, hi.position, hi.chipSelect, rfl⟩

/-- At the start of an event no frame is half sent. -/
theorem midFrame_start {s : State} {evs : List BusEvent} {k : Nat} {fin : Finish} (h : s.seq = .run evs k (primsAt evs k) fin) :
    midFrame s = false := by
  simp only [midFrame, h]
  split
  · simp [primsAt, *]
  · rfl

/-- Starting a non-empty event list that fits the protocol state keeps the invariant. -/
theorem blockInv_startRun {evs : List BusEvent} {fin : Finish} {s : State} (hne : evs ≠ [])
    (hc : s.cfgAccepted = true → s.cfg.accepts = true) (hm : s.fb.wf = true) (hp : s.pstate ≠ .reset → s.pulsed = true)
    (hcs : s.csAsserted = false) (he : ErrOk s) (hr : RunOk s evs fin) : BlockInv (startRun evs fin s) := by
  rw [startRun_of_ne_nil hne]
  refine ⟨hc, hm, hp, ⟨todoOk_primsAt (Nat.zero_le _), ?_⟩, ?_, he⟩
  · cases fin <;> exact hr
  · exact hcs.trans (midFrame_start rfl).symm

/-- What is running stays one of the three lists while the protocol state, the parameters and FB stay. -/
theorem RunOk.congr {s t : State} {evs : List BusEvent} {fin : Finish} (h : RunOk s evs fin) (hp : t.pstate = s.pstate)
    (hc : t.cfg = s.cfg) (hf : t.fb = s.fb) (hn : t.powerOns = s.powerOns) : RunOk t evs fin := by
  cases fin <;> simp only [RunOk, hp, hc, convert_congr hf hn] at * <;> exact h

end Sys2Proof.Machine
end

