-- ==== Sys2Proof/Laws/PerInstr.lean ====
section
/-! SUPPORT. Per instruction: the word of a well-formed instruction selects the opcode-map row of its mnemonic
(spec/30_encoding.md R73). -/

namespace Sys2Proof.Laws.OpcodeMap

/-- The encoded word selects the row of the instruction's mnemonic. -/
def Statement (i : Instr) : Prop := ∃ r ∈ opcodeRows, r.mnemonic = i.mnemonic ∧ r.selects (encode i) = true

theorem setpx (x y : Nat) (on : Bool) : Statement (.setpx x y on) := by
  refine ⟨⟨"SETPX", 0x10000000#32, 0xFE000000#32⟩, by simp [opcodeRows], rfl, ?_⟩
  have key : ∀ (o : BitVec 1) (u v : BitVec 12),
      (0x1#4 ++ 0#3 ++ o ++ u ++ v : BitVec 32) &&& 0xFE000000#32 = 0x10000000#32 := by
    intro o u v
    ext k hk
    simp only [BitVec.getElem_and, BitVec.getElem_append]
    interval_cases k <;> simp
  simp only [OpcodeRow.selects, encode, beq_iff_eq]
  exact key _ _ _

theorem clear : Statement .clear := ⟨⟨"CLEAR", 0x20000000#32, 0xFFFFFFFF#32⟩, by simp [opcodeRows], rfl, by decide⟩

theorem reset : Statement .reset := ⟨⟨"RESET", 0x30000000#32, 0xFFFFFFFF#32⟩, by simp [opcodeRows], rfl, by decide⟩

theorem init : Statement .init := ⟨⟨"INIT", 0x40000000#32, 0xFFFFFFFF#32⟩, by simp [opcodeRows], rfl, by decide⟩

theorem refresh : Statement .refresh :=
  ⟨⟨"REFRESH", 0x50000000#32, 0xFFFFFFFF#32⟩, by simp [opcodeRows], rfl, by decide⟩

end Sys2Proof.Laws.OpcodeMap
end

