-- ==== Sys2Proof/Laws/Run.lean ====
section
/-! SUPPORT. Runs of several steps. -/

namespace Sys2Proof.Machine

@[simp] theorem run_zero (s : State) : Host.Core.run Sys2Proof.core 0 s = .next s := rfl

/-- A run goes on from the next state. -/
theorem run_succ {s t : State} (h : step s = .next t) (n : Nat) :
    Host.Core.run Sys2Proof.core (n + 1) s = Host.Core.run Sys2Proof.core n t := by
  have hc : Sys2Proof.core.step s = .next t := h
  simp only [Host.Core.run, hc]

/-- A run that ends in a next state has made its first step. -/
theorem run_succ_inv {s t : State} {n : Nat} (h : Host.Core.run Sys2Proof.core (n + 1) s = .next t) :
    ∃ u, step s = .next u ∧ Host.Core.run Sys2Proof.core n u = .next t := by
  simp only [Host.Core.run] at h
  split at h
  · exact ⟨_, ‹_›, h⟩
  · cases h
  · cases h

/-- `m + n` steps are `m` steps and then `n`. -/
theorem run_add {s t : State} {m : Nat} (h : Host.Core.run Sys2Proof.core m s = .next t) (n : Nat) :
    Host.Core.run Sys2Proof.core (m + n) s = Host.Core.run Sys2Proof.core n t := by
  induction m generalizing s with
  | zero =>
    cases h
    rw [Nat.zero_add]
  | succ m ih =>
    obtain ⟨u, hu, hr⟩ := run_succ_inv h
    rw [show m + 1 + n = (m + n) + 1 by omega, run_succ hu]
    exact ih hr

/-- The undisturbed block in RUN takes a sequencer step. -/
theorem step_of_run {s : State} {evs : List BusEvent} {k : Nat} {todo : List Prim} {fin : Finish} (hu : Undisturbed s)
    (hs : s.seq = .run evs k todo fin) : step s = .next (seqStep evs k todo fin s) := by
  obtain ⟨hc, -, hsc⟩ := hu
  simp [step, hc, runStep, hsc, act, hs]

/-! ### The lines after several primitives -/

@[simp] theorem driveAll_nil (s : State) : driveAll [] s = s := rfl

@[simp] theorem driveAll_cons (p : Prim) (ps : List Prim) (s : State) : driveAll (p :: ps) s = driveAll ps (p.drive s) := rfl

theorem driveAll_append (ps qs : List Prim) (s : State) : driveAll (ps ++ qs) s = driveAll qs (driveAll ps s) := by
  simp [driveAll]

/-- The lines are the only thing the primitives move. -/
theorem driveAll_keeps (ps : List Prim) (s : State) :
    driveAll ps s = { s with rstLevel := (driveAll ps s).rstLevel, csAsserted := (driveAll ps s).csAsserted,
                             dc := (driveAll ps s).dc } := by
  induction ps generalizing s with
  | nil => rfl
  | cons p ps ih =>
    rw [driveAll_cons, ih]
    cases p <;> rfl

/-- The sequencer position and the trace do not matter to the lines. -/
theorem driveAll_with (ps : List Prim) (s : State) (q : Seq) (l : List BusEvent) :
    driveAll ps { s with seq := q, trace := l } = { driveAll ps s with seq := q, trace := l } := by
  induction ps generalizing s with
  | nil => rfl
  | cons p ps ih =>
    rw [driveAll_cons, driveAll_cons, ← ih]
    cases p <;> rfl

/-- The protocol state does not matter to the lines. -/
theorem driveAll_pstate (ps : List Prim) (s : State) (q : PState) :
    driveAll ps { s with pstate := q } = { driveAll ps s with pstate := q } := by
  induction ps generalizing s with
  | nil => rfl
  | cons p ps ih =>
    rw [driveAll_cons, driveAll_cons, ← ih]
    cases p <;> rfl

/-- Transferring bytes moves no line. -/
theorem driveAll_xfers (bytes : List Byte) (s : State) : driveAll (bytes.map Prim.xfer) s = s := by
  induction bytes with
  | nil => rfl
  | cons b rest ih => exact ih

/-- A frame leaves chip select deasserted and the command/data line at the frame's level (R141). -/
theorem driveAll_frame (dc : DC) (bytes : List Byte) (s : State) :
    driveAll (BusEvent.frame dc bytes).prims s = { s with csAsserted := false, dc := dc } := by
  rw [frame_prims, driveAll_cons, driveAll_cons, driveAll_append, driveAll_xfers]
  rfl

/-- A hold moves no line (R142). -/
theorem driveAll_hold (ms : Nat) (s : State) : driveAll (eventPrims (hold ms)) s = s := by
  unfold hold
  split <;> rfl

/-- A command with its data leaves chip select deasserted and the reset line where it was (R144). -/
theorem driveAll_tx (op : Byte) (data : List Byte) (s : State) :
    ∃ dc, driveAll (eventPrims (tx op data)) s = { s with csAsserted := false, dc := dc } := by
  cases data with
  | nil =>
    rw [tx_nil, eventPrims_cons, eventPrims_nil, List.append_nil, driveAll_frame]
    exact ⟨_, rfl⟩
  | cons d ds =>
    rw [tx_cons, eventPrims_cons, eventPrims_cons, eventPrims_nil, List.append_nil, driveAll_append, driveAll_frame,
      driveAll_frame]
    exact ⟨_, rfl⟩

/-! ### One event, primitive by primitive -/

/-- What the transport acknowledges in `m + n` steps. -/
theorem ackedPrims_add {m : Nat} (n : Nat) {s t : State} (h : Host.Core.run Sys2Proof.core m s = .next t) :
    ackedPrims (m + n) s = ackedPrims m s ++ ackedPrims n t := by
  induction m generalizing s with
  | zero =>
    cases h
    simp [ackedPrims]
  | succ m ih =>
    obtain ⟨u, hu, hr⟩ := run_succ_inv h
    rw [show m + 1 + n = (m + n) + 1 by omega]
    simp only [ackedPrims, hu, ih hr, List.append_assoc]

/-- An undisturbed block with the primitives `todo` of event `k` still to come completes that event in one step per
primitive; the transport acknowledges exactly `todo`. -/
theorem run_event {evs : List BusEvent} {k : Nat} {fin : Finish} {e : BusEvent} (he : evs[k]? = some e) (todo : List Prim)
    {s : State} (hne : todo ≠ []) (hu : Undisturbed s) (hs : s.seq = .run evs k todo fin) :
    ∃ t : State, Host.Core.run Sys2Proof.core todo.length s = .next t ∧
      t = { driveAll todo s with seq := .run evs (k + 1) (primsAt evs (k + 1)) fin, trace := s.trace ++ [e] } ∧
      Undisturbed t ∧ ackedPrims todo.length s = todo := by
  induction todo generalizing s with
  | nil => exact absurd rfl hne
  | cons p rest ih =>
    have hst := step_of_run hu hs
    have hu' : Undisturbed (seqStep evs k (p :: rest) fin s) :=
      ⟨by simp [hu.1], by simp [hu.2.1], by simp [hu.2.2]⟩
    have hreq : s.request = some p := by simp [State.request, hs, he]
    cases rest with
    | nil =>
      have hk : seqStep evs k [p] fin s = completeEvent evs k fin e (p.drive s) := by simp [seqStep, he, hu.2.1, acknowledge]
      refine ⟨_, by rw [List.length_singleton, run_succ hst]; rfl, ?_, hu', ?_⟩
      · rw [hk]
        cases p <;> rfl
      · simp [ackedPrims, hst, hreq, hu.2.1]
    | cons q rest =>
      have hk : seqStep evs k (p :: q :: rest) fin s = { p.drive s with seq := .run evs k (q :: rest) fin } := by
        simp [seqStep, he, hu.2.1, acknowledge]
      obtain ⟨t, h1, h2, h3, h4⟩ := ih (by simp) hu' (by rw [hk])
      refine ⟨t, by rw [List.length_cons, run_succ hst]; exact h1, ?_, h3, ?_⟩
      · have hseq : driveAll (q :: rest) { p.drive s with seq := .run evs k (q :: rest) fin } =
            { driveAll (q :: rest) (p.drive s) with seq := .run evs k (q :: rest) fin, trace := (p.drive s).trace } :=
          driveAll_with (q :: rest) (p.drive s) (.run evs k (q :: rest) fin) (p.drive s).trace
        rw [h2, hk, hseq, driveAll_cons p]
        simp
      · rw [List.length_cons, ackedPrims]
        simp only [hst, hreq, hu.2.1]
        rw [h4]
        rfl

end Sys2Proof.Machine
end

