-- ==== Sys2Proof/Tests/Slice0.lean ====
section
/-! SUPPORT. Tests: expected values come from spec/95_test_vectors.md (V-…, E…) and the rules named; each runs one step at
most. Then, for every statement with hypotheses, a witness that meets them. -/

open Sys2Proof Sys2Proof.Machine

namespace Sys2Proof.Tests

/-! ### Well-formed terms -/

theorem test_wf_largest_operands : (Instr.setpx 4095 4095 true).wf = true := by decide
theorem test_wf_refuses_wide_x : (Instr.setpx 4096 0 true).wf = false := by decide
theorem test_wf_refuses_wide_y : (Instr.setpx 0 4096 false).wf = false := by decide
theorem test_wf_refuses_wide_pxon : (Pseudo.pxon 4096 0).wf = false ∧ (Pseudo.pxon 0 4096).wf = false := by decide
theorem test_wf_refuses_wide_pxoff : (Pseudo.pxoff 4096 0).wf = false ∧ (Pseudo.pxoff 0 4096).wf = false := by decide

/-! ### The build-time check (R9, R151, R161; V-S13) -/

/-- A table that meets R151: V-S13's table with an OP_DFS record added. -/
def sampleTable : List InitRecord := [⟨0x11, [], 120⟩, ⟨0x36, [0x48], 0⟩, ⟨0x3A, [0x11], 0⟩, ⟨0x29, [], 100⟩]

/-- A configuration with all values written out. -/
def sampleConfig : Config :=
  { width := 384, height := 168, initTable := sampleTable, ops := WireOps.defaults, winColData := [0x17, 0x24],
    winRowData := [0x00, 0xBF], tRstH1 := 10, tRstL := 20, tRstH2 := 30 }

theorem test_config_accepted : sampleConfig.accepts = true := by decide
/-- V-S13: no OP_DFS record, constraint (d). -/
theorem test_table_without_dfs_refused :
    initTableOk WireOps.defaults [⟨0x11, [], 120⟩, ⟨0x36, [0x48], 0⟩, ⟨0x29, [], 100⟩] = false := by decide
/-- R151 (d): no OP_MADCTL record. -/
theorem test_table_without_madctl_refused :
    initTableOk WireOps.defaults [⟨0x11, [], 120⟩, ⟨0x3A, [0x11], 0⟩, ⟨0x29, [], 100⟩] = false := by decide
/-- R151 (a): the first OP_SLPOUT record has no delay. -/
theorem test_table_first_slpout_undelayed_refused :
    initTableOk WireOps.defaults [⟨0x11, [], 0⟩, ⟨0x11, [], 120⟩, ⟨0x36, [], 0⟩, ⟨0x3A, [], 0⟩, ⟨0x29, [], 1⟩] = false := by
  decide
/-- R151 (b): display-on before sleep-exit. -/
theorem test_table_wrong_order_refused :
    initTableOk WireOps.defaults [⟨0x29, [], 100⟩, ⟨0x36, [], 0⟩, ⟨0x3A, [], 0⟩, ⟨0x11, [], 120⟩] = false := by decide
/-- R151 (c): three delays. -/
theorem test_table_third_delay_refused :
    initTableOk WireOps.defaults [⟨0x11, [], 120⟩, ⟨0x36, [], 1⟩, ⟨0x3A, [], 0⟩, ⟨0x29, [], 100⟩] = false := by decide
theorem test_window_thirteen_groups_refused : windowOk [0x17, 0x23] [0x00, 0xBF] = false := by decide
theorem test_window_193_rows_refused : windowOk [0x17, 0x24] [0x00, 0xC0] = false := by decide
theorem test_window_one_byte_refused : windowOk [0x17] [0x00, 0xBF] = false := by decide
theorem test_size_refused : sizeOk 385 168 = false ∧ sizeOk 384 169 = false ∧ sizeOk 0 1 = false ∧ sizeOk 1 0 = false := by
  decide
theorem test_size_bounds : sizeOk 384 168 = true ∧ sizeOk 1 1 = true := by decide

/-! ### Decoding: words written out from R71 and R72 (V-D1 to V-D20) -/

theorem test_decode_setpx_on : decode 0b0001_000_1_000000000000_000000000000#32 = .command (.setpx 0 0 true) := by decide
theorem test_decode_setpx_off : decode 0b0001_000_0_000000000000_000000000000#32 = .command (.setpx 0 0 false) := by decide
/-- V-D17 and V-P12: X and Y are not swapped. -/
theorem test_decode_setpx_fields : decode 0b0001_000_0_000101111111_000010100111#32 = .command (.setpx 383 167 false) ∧
    decode 0x11064032#32 = .command (.setpx 100 50 true) := by decide
theorem test_decode_setpx_out_of_range_is_legal : decode 0x11180000#32 = .command (.setpx 384 0 true) ∧
    decode 0x110000A8#32 = .command (.setpx 0 168 true) ∧ decode 0x11FFFFFF#32 = .command (.setpx 4095 4095 true) := by decide
theorem test_decode_clear : decode 0b0010_0000000000000000000000000000#32 = .command .clear := by decide
theorem test_decode_reset : decode 0b0011_0000000000000000000000000000#32 = .command .reset := by decide
theorem test_decode_init : decode 0b0100_0000000000000000000000000000#32 = .command .init := by decide
theorem test_decode_refresh : decode 0b0101_0000000000000000000000000000#32 = .command .refresh := by decide
theorem test_decode_illegal_op : decode 0x00000000#32 = .illegal .opcode ∧ decode 0x60000000#32 = .illegal .opcode ∧
    decode 0xF0000000#32 = .illegal .opcode ∧ decode 0xFFFFFFFF#32 = .illegal .opcode := by decide
theorem test_decode_reserved_bits : decode 0x12000000#32 = .illegal .reservedBits ∧
    decode 0x1E000000#32 = .illegal .reservedBits ∧ decode 0x20000001#32 = .illegal .reservedBits ∧
    decode 0x2FFFFFFF#32 = .illegal .reservedBits ∧ decode 0x40000100#32 = .illegal .reservedBits ∧
    decode 0x58000000#32 = .illegal .reservedBits := by decide
theorem test_decode_table_word : decodeTableWord 32 0x11064032 = some (.setpx 100 50 true) ∧
    decodeTableWord 32 0x60000000 = none := by decide
theorem test_encode_setpx : encode (.setpx 201 99 true) = 0x110C9063#32 ∧ encode (.setpx 3 3 false) = 0x10003003#32 := by
  decide

/-! ### Addresses and the packer (V-P1 to V-P17, V-N1 to V-N14, V-PR1 to V-PR11, V-CV3 to V-CV6) -/

theorem test_pixel_offsets : pixelOffset 0 8 = 384 ∧ pixelOffset 383 167 = 8063 ∧ pixelOffset 100 50 = 2404 ∧
    pixelOffset 201 99 = 4809 ∧ pixelOffset 0 167 = 7680 ∧ pixelOffset 299 99 = 4907 := by decide
theorem test_pixel_bits : pixelBit 8 = 0 ∧ pixelBit 167 = 7 ∧ pixelBit 50 = 2 ∧ pixelBit 99 = 3 := by decide
theorem test_wire_places : (wireIndex 1 0, wireBit 1 0) = (0, 6) ∧ (wireIndex 2 0, wireBit 2 0) = (42, 7) ∧
    (wireIndex 0 4, wireBit 0 4) = (1, 7) ∧ (wireIndex 383 0, wireBit 383 0) = (8022, 6) ∧
    (wireIndex 383 167, wireBit 383 167) = (8063, 0) ∧ (wireIndex 100 50, wireBit 100 50) = (2112, 3) ∧
    (wireIndex 201 99, wireBit 201 99) = (4224, 0) := by decide
theorem test_nibble : nibble 0x2 0x0 = 0x20#8 ∧ nibble 0x0 0x2 = 0x10#8 ∧ nibble 0x4 0x0 = 0x08#8 ∧ nibble 0x8 0x0 = 0x02#8 ∧
    nibble 0x0 0x8 = 0x01#8 ∧ nibble 0x5 0xA = 0x99#8 ∧ nibble 0x3 0xC = 0xA5#8 := by decide
theorem test_pair : pair 0x00 0x80 = [0x00#8, 0x01#8] ∧ pair 0x0F 0xF0 = [0xAA#8, 0x55#8] ∧ pair 0xA5 0x5A = [0x99#8, 0x66#8] ∧
    pair 0x81 0x18 = [0x81#8, 0x42#8] ∧ pair 0x12 0x34 = [0x24#8, 0xD0#8] := by decide
/-- V-CV5: column 2 starts the next column pair, at byte 42. -/
theorem test_convert_column_two : (convertBytes fun a => if a = 2 then 0x01#8 else 0x00#8)[42]? = some 0x80#8 := by decide
/-- V-CV6: band 1 of column 0 stands at byte 2. -/
theorem test_convert_band_one : (convertBytes fun a => if a = 384 then 0x01#8 else 0x00#8)[2]? = some 0x80#8 := by decide

/-! ### Bus events (V-S12, V-S14, V-S16) -/

theorem test_frame_expansion : (BusEvent.frame .data [0x17, 0x24]).prims =
    [.sel true, .mode .data, .xfer 0x17, .xfer 0x24, .sel false] := by decide
theorem test_reset_events_without_holds :
    resetEvents { sampleConfig with tRstH1 := 0, tRstL := 0, tRstH2 := 0 } = [.rst true, .rst false, .rst true] := by decide
theorem test_reset_events : resetEvents sampleConfig =
    [.rst true, .wait 10, .rst false, .wait 20, .rst true, .wait 30] := by decide
theorem test_init_events : initEvents sampleConfig =
    [.frame .cmd [0x11], .wait 120, .frame .cmd [0x36], .frame .data [0x48], .frame .cmd [0x3A], .frame .data [0x11],
     .frame .cmd [0x29], .wait 100] := by decide
theorem test_window_events : setWindowEvents Config.defaults =
    [.frame .cmd [0x2A], .frame .data [0x17, 0x24], .frame .cmd [0x2B], .frame .data [0x00, 0xBF]] := by decide

/-! ### Single steps -/

/-- An idle block with the sample configuration in protocol state `p`. -/
def sample (p : PState) (q : Bool) : State := { State.build sampleConfig with pstate := p, pulsed := q, dc := .cmd }

/-- The same with `w` on the command port. -/
def offered (p : PState) (q : Bool) (w : Word) : State := { sample p q with stream := [w] }

/-- A running block: the event list `evs` with the primitives `todo` of event `k` to come. -/
def running (p : PState) (q : Bool) (evs : List BusEvent) (k : Nat) (todo : List Prim) (fin : Finish) : State :=
  { sample p q with seq := .run evs k todo fin }

/-- A property of the next state, false where there is none. -/
def after (o : Host.Outcome State Fault Refusal) (p : State → Bool) : Bool :=
  match o with
  | .next t => p t
  | .fault _ => false
  | .refused _ => false

/-- V-P15: only bit 3 of 0xFF is cleared. -/
theorem test_setpx_clears_one_bit :
    after (exec (.setpx 0 3 false) { sample .reset false with fb := [(0, 0xFF)] }) (fun t => t.fb = [(0, 0xF7)]) = true := by
  decide
/-- V-P11 and V-CV8: the last pixel is bit 7 of byte 8063, and the list stays sorted. -/
theorem test_setpx_last_pixel :
    after (exec (.setpx 383 167 true) { sample .ready true with fb := [(0, 0x01), (8063, 0x00)] })
      (fun t => t.fb = [(0, 0x01), (8063, 0x80)]) = true := by
  decide
/-- V-C1: what was written is gone. -/
theorem test_clear_zeroes : after (exec .clear { sample .reset false with fb := [(0, 0xFF)] }) (fun t => t.fbByte 0 = 0x00) =
    true := by
  decide
/-- V-C3: 0x20000001 is refused and FB keeps its bytes. -/
theorem test_clear_reserved_bit : after (step { offered .reset false 0x20000001 with fb := [(0, 0xFF)] })
    (fun t => t.status = 0x00000110 ∧ t.errword = 0x20000001 ∧ t.fb = [(0, 0xFF)]) = true := by
  decide
/-- R145: BUSY, the reset line high first. -/
theorem test_reset_starts : after (step (offered .reset false 0x30000000))
    (fun t => t.status = 0x00000004 ∧ t.request = some (.rst true) ∧ t.stream = []) = true := by
  decide
/-- V-S8. -/
theorem test_reset_refused_in_ready : after (step (offered .ready true 0x30000000))
    (fun t => t.status = 0x0000022A ∧ t.errword = 0x30000000) = true := by
  decide
/-- R150: INITIALIZED and BUSY at acceptance, PULSED still set. -/
theorem test_init_starts : after (step (offered .reset true 0x40000000))
    (fun t => t.status = 0x0000000D ∧ t.request = some (.sel true)) = true := by
  decide
/-- V-S5. -/
theorem test_init_refused_without_pulse : after (step (offered .reset false 0x40000000))
    (fun t => t.status = 0x00000220 ∧ t.errword = 0x40000000) = true := by
  decide
/-- R170: BUSY, and PSTATE stays READY. -/
theorem test_refresh_starts : after (exec .refresh (sample .ready true))
    (fun t => t.status = 0x0000000E ∧ t.request = some (.sel true)) = true := by
  decide
/-- V-S7. -/
theorem test_refresh_refused_before_init : after (step (offered .reset true 0x50000000))
    (fun t => t.status = 0x00000348 ∧ t.errword = 0x50000000) = true := by
  decide
/-- V-S10. -/
theorem test_illegal_word_in_ready : after (step (offered .ready true 0x60000000)) (fun t => t.status = 0x0000011A) = true := by
  decide
/-- P3, line 8: the bits stay and LAST_CAUSE and ERRWORD are overwritten. -/
theorem test_second_refusal_overwrites : after
    (step { offered .ready true 0x12000000 with
      errSeq := true, errNotInit := true, lastCause := some .sequenceViolation, errword := 0x30000000 })
    (fun t => t.status = 0x0000017A ∧ t.errword = 0x12000000) = true := by
  decide
/-- R141: the last primitive of a frame deselects, and the event enters the trace. -/
theorem test_frame_completes :
    after (step { running .ready true [.frame .cmd [0x2A], .wait 5] 0 [.sel false] .nothing with csAsserted := true })
      (fun t => t.csAsserted = false ∧ t.trace = [.frame .cmd [0x2A]] ∧ t.request = some (.wait 5)) = true := by
  decide
/-- V-S15: no acknowledgement, nothing moves. -/
theorem test_stall :
    after (step { running .ready true [.frame .cmd [0x2A]] 0 [.xfer 0x2A, .sel false] .nothing with
      csAsserted := true, ack := false })
      (fun t => t.status = 0x0000000E ∧ t.cmdReady = false ∧ t.request = some (.xfer 0x2A)) = true := by
  decide
/-- R150: the end of INIT's list makes PSTATE READY and BUSY 0. -/
theorem test_init_completes : after (step (running .initialized true (initEvents sampleConfig) 8 [] .setReady))
    (fun t => t.status = 0x0000000A) = true := by
  decide
/-- R241: a block power-on reset inside a frame. -/
theorem test_power_on_inside_a_frame :
    after (step { running .ready true [.frame .cmd [0x2A]] 0 [.xfer 0x2A, .sel false] .nothing with
      csAsserted := true, script := [.powerOn] })
      (fun t => t.status = 0 ∧ t.csAsserted = false ∧ t.trace = [] ∧ t.request = none) = true := by
  decide
/-- R151, R252: a configuration with a wrong window does not run. -/
theorem test_bad_window_does_not_run :
    step { State.build { sampleConfig with winColData := [0x17, 0x23] } with stream := [0x20000000] } =
      .refused .badConfiguration := by
  rfl

/-! ### One instruction placed for the next step, from the reset state -/

theorem test_placed_setpx : after (step (State.reset.withFetchWord 32 0x11000000))
    (fun t => t.busy = false ∧ t.stream = [] ∧ t.errIllegal = false) = true := by decide
theorem test_placed_clear : after (step (State.reset.withFetchWord 32 0x20000000)) (fun t => t.fbByte 0 = 0x00) = true := by
  decide
theorem test_placed_reset : after (step (State.reset.withFetchWord 32 0x30000000)) (fun t => t.busy = true) = true := by
  decide
theorem test_placed_init : after (step (State.reset.withFetchWord 32 0x40000000)) (fun t => t.status = 0x00000220) = true := by
  decide
theorem test_placed_refresh : after (step (State.reset.withFetchWord 32 0x50000000))
    (fun t => t.status = 0x00000340) = true := by
  decide

/-! ### The command-stream notation (R79, R80) -/

theorem test_read_setpx : readLine ['s', 'e', 't', 'p', 'x', ' ', '0', 'x', '6', '4', ',', ' ', '5', '0', ',', '1', ' ', ';', '!'] =
    some (.command (.setpx 100 50 true)) := by decide
theorem test_read_begin : readLine ['B', 'e', 'g', 'i', 'n'] = some (.pseudo .bringUp) := by decide
theorem test_read_raw : readLine ['.', 'w', 'o', 'r', 'd', ' ', '0', 'x', '1', '2', '0', '0', '0', '0', '0', '0'] =
    some (.raw 0x12000000) := by decide
theorem test_read_wide_operand_refused : readLine ['P', 'X', 'O', 'N', ' ', '4', '0', '9', '6', ',', '0'] = none := by decide

/-! ### Witnesses: states and operands that meet the hypotheses of the statements -/

theorem after_next {o : Host.Outcome State Fault Refusal} {p : State → Bool} (h : after o p = true) :
    ∃ t, o = .next t ∧ p t = true := by
  cases o with
  | next t => exact ⟨t, rfl, h⟩
  | fault f => exact absurd h (by simp [after])
  | refused r => exact absurd h (by simp [after])

theorem sample_inv {p : PState} {q : Bool} (w : List Word) (l : List Outside) (h : p = .reset ∨ (p = .ready ∧ q = true)) :
    BlockInv { sample p q with stream := w, script := l } := by
  refine ⟨fun _ => test_config_accepted, rfl, fun hp => ?_, ?_, rfl, ⟨rfl, rfl, rfl, rfl⟩⟩
  · rcases h with rfl | ⟨rfl, rfl⟩
    · exact absurd rfl hp
    · rfl
  · rcases h with rfl | ⟨rfl, rfl⟩
    · exact show PState.reset ≠ .initialized by decide
    · exact show PState.ready ≠ .initialized by decide

theorem sample_shape (w : List Word) : TraceShape { sample .reset false with stream := w } :=
  ⟨0, [], by simp, rfl, fun hq => Bool.noConfusion hq, fun _ => rfl, List.suffix_refl _⟩

/-- The block at the end of INIT's event list, before `fin`. -/
def initEnd : State := running .initialized true (initEvents sampleConfig) 8 [] .setReady

theorem initEnd_inv : BlockInv initEnd :=
  ⟨fun _ => test_config_accepted, rfl, fun _ => rfl, ⟨⟨by decide, rfl⟩, rfl, rfl⟩, rfl, ⟨rfl, rfl, rfl, rfl⟩⟩

/-- The block at the end of RESET's event list, before `fin`. -/
def resetEnd : State := running .reset false (resetEvents sampleConfig) 6 [] .setPulsed

theorem resetEnd_inv : BlockInv resetEnd :=
  ⟨fun _ => test_config_accepted, rfl, fun h => absurd rfl h, ⟨⟨by decide, rfl⟩, rfl, rfl⟩, rfl, ⟨rfl, rfl, rfl, rfl⟩⟩

/-- The block inside a hold of RESET. -/
def inHold : State := running .reset false (resetEvents sampleConfig) 1 [.wait 10] .setPulsed

theorem inHold_inv : BlockInv inHold :=
  ⟨fun _ => test_config_accepted, rfl, fun h => absurd rfl h, ⟨⟨by decide, List.suffix_refl _⟩, rfl, rfl⟩, rfl,
    ⟨rfl, rfl, rfl, rfl⟩⟩

theorem witness_DecodeOfEncodeIsIdentity : (Instr.setpx 4095 4095 true).wf = true ∧ (Instr.setpx 0 0 false).wf = true ∧
    Instr.refresh.wf = true := by decide

theorem witness_EncodeOfDecodeIsIdentity : decode 0x11FFFFFF = .command (.setpx 4095 4095 true) ∧
    decode 0x20000000 = .command .clear := by decide

/-- A word for each of the eight clauses. -/
theorem witness_DecodeFollowsOpField :
    ((0x11FFFFFF#32).toNat / 2 ^ 28 = 1 ∧ (0x11FFFFFF#32).toNat / 2 ^ 25 % 2 ^ 3 = 0) ∧
    ((0x12000000#32).toNat / 2 ^ 28 = 1 ∧ (0x12000000#32).toNat / 2 ^ 25 % 2 ^ 3 ≠ 0) ∧
    ((0x20000000#32).toNat / 2 ^ 28 = 2 ∧ (0x20000000#32).toNat % 2 ^ 28 = 0) ∧
    ((0x30000000#32).toNat / 2 ^ 28 = 3 ∧ (0x30000000#32).toNat % 2 ^ 28 = 0) ∧
    ((0x40000000#32).toNat / 2 ^ 28 = 4 ∧ (0x40000000#32).toNat % 2 ^ 28 = 0) ∧
    ((0x50000000#32).toNat / 2 ^ 28 = 5 ∧ (0x50000000#32).toNat % 2 ^ 28 = 0) ∧
    ((0x5FFFFFFF#32).toNat / 2 ^ 28 = 5 ∧ (0x5FFFFFFF#32).toNat % 2 ^ 28 ≠ 0 ∧ (0x20000001#32).toNat % 2 ^ 28 ≠ 0) ∧
    ((0x0FFFFFFF#32).toNat / 2 ^ 28 = 0 ∧ 6 ≤ (0x60000000#32).toNat / 2 ^ 28) := by decide

/-- A word that selects a row, one that selects none, and the illegal OP values next to the map. -/
theorem witness_OpcodeMapDecidesTheCommand :
    0x11FFFFFF#32 &&& 0xFE000000#32 = 0x10000000#32 ∧ (∀ r ∈ opcodeRows, 0x12000000#32 &&& r.mask ≠ r.value) ∧
    opField 0x0FFFFFFF#32 = 0#4 ∧ 6#4 ≤ opField 0x60000000#32 := by decide

/-- A coordinate at each end of each clause. -/
theorem witness_HostCoordinatesKeepTheirRange :
    hostCoord 0 = 0 ∧ hostCoord 4095 = 4095 ∧ hostCoord (-2048) = 2048 ∧ hostCoord (-1) = 4095 ∧ hostCoord (-2049) = 0xFFF ∧
    hostCoord 4096 = 0xFFF := by decide

theorem witness_EncodingsOfTheNotation : (4095 < 4096) ∧ encode (.setpx 4095 4095 true) = 0x11FFFFFF#32 := by decide

/-- The state of both script clauses. -/
theorem witness_StepRunsTheDecodedInstruction :
    (offered .reset false 0x20000000).cfgAccepted = true ∧ (offered .reset false 0x20000000).seq = .idle ∧
    (offered .reset false 0x20000000).stream = [0x20000000#32] ∧ (offered .reset false 0x20000000).script = [] ∧
    decode 0x20000000#32 = .command .clear ∧
    { offered .reset false 0x20000000 with script := [.quiet] }.script = .quiet :: [] :=
  ⟨rfl, rfl, rfl, rfl, by decide, rfl⟩

theorem witness_IllegalWordIsRefused :
    (offered .ready true 0x60000000).cfgAccepted = true ∧ (offered .ready true 0x60000000).seq = .idle ∧
    (offered .ready true 0x60000000).stream = [0x60000000#32] ∧ (offered .ready true 0x60000000).script = [] ∧
    decode 0x60000000#32 = .illegal .opcode :=
  ⟨rfl, rfl, rfl, rfl, by decide⟩

theorem witness_IllegalWordsAreThese : ∃ why, decode 0x12000000#32 = .illegal why := ⟨.reservedBits, by decide⟩

/-- No WAIT is outstanding in it. -/
theorem witness_EventsShortOfPowerOnDriveOnlyTheInputs : (sample .reset false).cfgAccepted = true ∧
    ∀ ms, (sample .reset false).request ≠ some (.wait ms) :=
  ⟨rfl, fun ms h => by cases h⟩

/-- A busy block at work while the host changes its word. -/
theorem witness_BusyBlockHoldsTheCommand :
    inHold.busy = true ∧ ∃ t, step { inHold with script := [.offer [0x20000000]] } = .next t ∧
      (∀ later, ({ inHold with script := [.offer [0x20000000]] } : State).script ≠ .powerOn :: later) := by
  refine ⟨rfl, ?_⟩
  obtain ⟨t, ht, -⟩ := after_next (p := fun t => t.busy)
    (show after (step { inHold with script := [.offer [0x20000000]] }) (fun t => t.busy) = true by decide)
  exact ⟨t, ht, fun later h => by simp at h⟩

theorem witness_PlacedWordIsRunNext : State.reset.cfgAccepted = true ∧ (Instr.setpx 4095 4095 true).wf = true :=
  ⟨rfl, by decide⟩

theorem witness_EffectiveAddressIsInjective : 383 < 384 ∧ 167 < 168 ∧ pixelOffset 383 167 = 8063 ∧ pixelOffset 0 0 = 0 := by
  decide

/-- The last pixel. -/
theorem witness_SetpxWritesItsByte : (sample .ready true).seq = .idle ∧ (sample .ready true).cfg.accepts = true ∧
    383 < (sample .ready true).cfg.width ∧ 167 < (sample .ready true).cfg.height := by
  refine ⟨rfl, test_config_accepted, ?_, ?_⟩ <;> decide

/-- Just past each edge. -/
theorem witness_SetpxOutOfRangeChangesNothing : (sample .ready true).seq = .idle ∧
    (sample .ready true).cfg.width ≤ 384 ∧ (sample .ready true).cfg.height ≤ 168 := by
  refine ⟨rfl, ?_, ?_⟩ <;> decide

theorem witness_SetpxChangesOnlyItsPixel : (sample .ready true).cfg.accepts = true ∧
    ∃ t, exec (.setpx 383 167 true) (sample .ready true) = .next t ∧ t.seq = .idle := by
  refine ⟨test_config_accepted, ?_⟩
  obtain ⟨t, ht, hp⟩ := after_next (p := fun t => t.seq = .idle)
    (show after (exec (.setpx 383 167 true) (sample .ready true)) (fun t => t.seq = .idle) = true by decide)
  exact ⟨t, ht, by simpa using hp⟩

theorem witness_ClearZeroesTheFramebuffer : (sample .initialized true).seq = .idle ∧
    ((0x20000001#32).toNat / 2 ^ 28 = 2 ∧ 0x20000001#32 ≠ 0x20000000#32) ∧ 8063 < 8064 := by
  refine ⟨rfl, ?_, ?_⟩ <;> decide

theorem witness_PixelCommandsIgnoreProtocolState : (sample .reset false).seq = .idle ∧
    (sample .reset false).cfg.accepts = true :=
  ⟨rfl, test_config_accepted⟩

theorem witness_NibbleInterleaves : 3 < 4 ∧ (nibble 0x8 0x0).getLsbD (7 - 2 * 3) = true := by decide

theorem witness_ConvertClosedForm : 191 < 192 ∧ 20 < 21 ∧ 1 < 2 ∧ 191 * 42 + 20 * 2 + 1 = 8063 := by decide

/-- The pixels and the wire bits at both ends, and a block whose framebuffer is all zero. -/
theorem witness_ConvertIsABitPermutation : 383 < 384 ∧ 167 < 168 ∧ (wireIndex 0 0, wireBit 0 0) = (0, 7) ∧
    (wireIndex 383 167, wireBit 383 167) = (8063, 0) ∧
    ∀ a, a < 8064 → ({ sample .ready true with fb := zeroCells } : State).fbByte a = 0#8 :=
  ⟨by decide, by decide, by decide, by decide, fun _ h => fbByte_fbZero (sample .ready true) h⟩

/-- Two blocks in different protocol states with the same framebuffer. -/
theorem witness_ConvertDependsOnlyOnTheFramebuffer :
    (∀ a, a < 8064 → (sample .ready true).fbByte a = (sample .reset false).fbByte a) ∧
    (sample .ready true).pstate ≠ (sample .reset false).pstate :=
  ⟨fun _ _ => rfl, by decide⟩

theorem witness_TransactionHelpers : hold 1 = [.wait 1] ∧ tx 0x2A [0x17] = [.frame .cmd [0x2A], .frame .data [0x17]] := by
  decide

theorem witness_ResetLineAndHoldEvents (e : BusEvent) :
    Undisturbed (running .reset false [e] 0 e.prims .nothing) ∧ [e][0]? = some e ∧
    (running .reset false [e] 0 e.prims .nothing).seq = .run [e] 0 e.prims .nothing :=
  ⟨⟨rfl, rfl, rfl⟩, rfl, rfl⟩

theorem witness_StalledTransportFreezesTheBlock :
    { inHold with ack := false }.cfgAccepted = true ∧ { inHold with ack := false }.script = [] ∧
    { inHold with ack := false }.ack = false ∧
    { inHold with ack := false }.seq = .run (resetEvents sampleConfig) 1 [.wait 10] .setPulsed ∧
    1 < (resetEvents sampleConfig).length :=
  ⟨rfl, rfl, rfl, rfl, by decide⟩

theorem witness_ShortenedHoldIsRefused :
    { inHold with script := [.shortHold] }.cfgAccepted = true ∧
    { inHold with script := [.shortHold] }.script = .shortHold :: [] ∧
    { inHold with script := [.shortHold] }.request = some (.wait 10) :=
  ⟨rfl, rfl, rfl⟩

/-- Also for an empty list and for a list that none of the commands has. -/
theorem witness_EventListRunsToCompletion (evs : List BusEvent) (fin : Finish) :
    Undisturbed (running .reset false evs 0 (primsAt evs 0) fin) ∧
    (running .reset false evs 0 (primsAt evs 0) fin).seq = .run evs 0 (primsAt evs 0) fin :=
  ⟨⟨rfl, rfl, rfl⟩, rfl⟩

theorem witness_TransportSeesExactlyTheEvents :
    Undisturbed (running .ready true [.frame .data [1, 2], .wait 3] 0 (primsAt [.frame .data [1, 2], .wait 3] 0) .nothing) :=
  ⟨rfl, rfl, rfl⟩

theorem witness_ResetStartsThePulse : (sample .reset false).seq = .idle ∧ (sample .reset false).pstate = .reset := ⟨rfl, rfl⟩

/-- RESET after READY, INIT after READY, and INIT without a pulse. -/
theorem witness_SequenceViolationsAreRefused :
    (sample .ready true).seq = .idle ∧ (sample .ready true).pstate ≠ .reset ∧ (sample .reset false).seq = .idle ∧
    (sample .reset false).pulsed = false :=
  ⟨rfl, by decide, rfl, rfl⟩

theorem witness_RefreshBeforeReadyIsRefused : (sample .reset true).seq = .idle ∧ (sample .reset true).pstate ≠ .ready :=
  ⟨rfl, by decide⟩

theorem witness_InitStartsTheSequence : (sample .reset true).seq = .idle ∧ (sample .reset true).cfg.accepts = true ∧
    (sample .reset true).pstate = .reset ∧ (sample .reset true).pulsed = true :=
  ⟨rfl, test_config_accepted, rfl, rfl⟩

theorem witness_RefreshStartsTheFrame : (sample .ready true).seq = .idle ∧ (sample .ready true).cfg.accepts = true ∧
    (sample .ready true).pstate = .ready :=
  ⟨rfl, test_config_accepted, rfl⟩

/-- INIT performed: both inner hypotheses hold too. -/
theorem witness_ProtocolCommandsLeaveTheRest : (sample .reset true).cfg.accepts = true ∧
    ∃ t, exec .init (sample .reset true) = .next t ∧ t.seq ≠ (sample .reset true).seq ∧
      t.pstate ≠ (sample .reset true).pstate := by
  refine ⟨test_config_accepted, ?_⟩
  obtain ⟨t, ht, hp⟩ := after_next (p := fun t => decide (t.busy = true ∧ t.pstate = .initialized))
    (show after (exec .init (sample .reset true)) (fun t => decide (t.busy = true ∧ t.pstate = .initialized)) = true by decide)
  obtain ⟨hb, hi⟩ := of_decide_eq_true hp
  refine ⟨t, ht, fun h => ?_, by rw [hi]; decide⟩
  have : t.seq = .idle := h
  simp [State.busy, this] at hb

theorem witness_ResetPulsesTheLine : Undisturbed (sample .reset false) ∧ (sample .reset false).seq = .idle ∧
    (sample .reset false).pstate = .reset :=
  ⟨⟨rfl, rfl, rfl⟩, rfl, rfl⟩

theorem witness_InitSendsTheTableExactly : Undisturbed (sample .reset true) ∧ (sample .reset true).cfg.accepts = true ∧
    (sample .reset true).seq = .idle ∧ (sample .reset true).pstate = .reset ∧ (sample .reset true).pulsed = true :=
  ⟨⟨rfl, rfl, rfl⟩, test_config_accepted, rfl, rfl, rfl⟩

theorem witness_RefreshTransmitsTheFramebuffer : Undisturbed (sample .ready true) ∧
    (sample .ready true).cfg.accepts = true ∧ (sample .ready true).seq = .idle ∧ (sample .ready true).pstate = .ready ∧
    Config.defaults.accepts = true ∧ ({ sample .ready true with cfg := Config.defaults } : State).cfg = Config.defaults :=
  ⟨⟨rfl, rfl, rfl⟩, test_config_accepted, rfl, rfl, Config.defaults_accepted, rfl⟩

/-- A step of each of the three kinds: INIT accepted, INIT completed, power-on reset. -/
theorem witness_ProtocolStateChangesOnlyThus :
    (BlockInv (offered .reset true 0x40000000) ∧
      ∃ t, step (offered .reset true 0x40000000) = .next t ∧ t.pstate ≠ PState.reset) ∧
    (BlockInv initEnd ∧ ∃ t, step initEnd = .next t ∧ t.pstate ≠ PState.initialized) ∧
    (BlockInv { sample .ready true with stream := [], script := [.powerOn] } ∧
      ∃ t, step { sample .ready true with stream := [], script := [.powerOn] } = .next t ∧ t.pstate ≠ PState.ready) := by
  refine ⟨⟨sample_inv _ [] (.inl rfl), ?_⟩, ⟨initEnd_inv, ?_⟩, sample_inv _ _ (.inr ⟨rfl, rfl⟩), ?_⟩
  · obtain ⟨t, ht, hp⟩ := after_next (p := fun t => decide (t.pstate ≠ .reset))
      (show after (step (offered .reset true 0x40000000)) (fun t => decide (t.pstate ≠ .reset)) = true by decide)
    exact ⟨t, ht, of_decide_eq_true hp⟩
  · obtain ⟨t, ht, hp⟩ := after_next (p := fun t => decide (t.pstate ≠ .initialized))
      (show after (step initEnd) (fun t => decide (t.pstate ≠ .initialized)) = true by decide)
    exact ⟨t, ht, of_decide_eq_true hp⟩
  · exact ⟨_, rfl, by decide⟩

/-- A step of each kind: RESET completed, power-on reset. -/
theorem witness_PulsedChangesOnlyThus :
    (BlockInv resetEnd ∧ ∃ t, step resetEnd = .next t ∧ t.pulsed ≠ false) ∧
    (BlockInv { sample .ready true with stream := [], script := [.powerOn] } ∧
      ∃ t, step { sample .ready true with stream := [], script := [.powerOn] } = .next t ∧ t.pulsed ≠ true) := by
  refine ⟨⟨resetEnd_inv, ?_⟩, sample_inv _ _ (.inr ⟨rfl, rfl⟩), _, rfl, by decide⟩
  obtain ⟨t, ht, hp⟩ := after_next (p := fun t => decide (t.pulsed ≠ false))
    (show after (step resetEnd) (fun t => decide (t.pulsed ≠ false)) = true by decide)
  exact ⟨t, ht, of_decide_eq_true hp⟩

/-- A block with a sticky bit set that takes a step. -/
theorem witness_StickyBitsStay : { sample .reset false with errSeq := true }.err .sequenceViolation = true ∧
    (∃ t, step { sample .reset false with errSeq := true } = .next t) ∧
    ∀ later, { sample .reset false with errSeq := true }.script ≠ .powerOn :: later :=
  ⟨rfl, ⟨_, rfl⟩, fun later h => by simp [sample, State.build, State.afterPowerOn] at h⟩

/-- Both cases: a step that refuses its word, and one that leaves the registers alone. -/
theorem witness_ErrorRegistersRecordTheRefusedWord :
    (∃ t, step (offered .reset false 0x50000000) = .next t ∧ t.errword = 0x50000000) ∧
    (∃ t, step (sample .reset false) = .next t ∧ t.errword = 0) ∧
    (∀ later, (offered .reset false 0x50000000).script ≠ .powerOn :: later) := by
  refine ⟨?_, ⟨_, rfl, rfl⟩, fun later h => by simp [offered, sample, State.build, State.afterPowerOn] at h⟩
  obtain ⟨t, ht, hp⟩ := after_next (p := fun t => decide (t.errword = 0x50000000))
    (show after (step (offered .reset false 0x50000000)) (fun t => decide (t.errword = 0x50000000)) = true by decide)
  exact ⟨t, ht, of_decide_eq_true hp⟩

/-- CLEAR changes a byte. -/
theorem witness_OnlyPixelCommandsWriteTheFramebuffer :
    (∀ later, { offered .ready true 0x20000000 with fb := [(0, 0xFF)] }.script ≠ .powerOn :: later) ∧
    ∃ t, step { offered .ready true 0x20000000 with fb := [(0, 0xFF)] } = .next t ∧ t.fbByte 0 ≠ 0xFF := by
  refine ⟨fun later h => by simp [offered, sample, State.build, State.afterPowerOn] at h, ?_⟩
  obtain ⟨t, ht, hp⟩ := after_next (p := fun t => decide (t.fbByte 0 ≠ 0xFF))
    (show after (step { offered .ready true 0x20000000 with fb := [(0, 0xFF)] }) (fun t => decide (t.fbByte 0 ≠ 0xFF)) = true
      by decide)
  exact ⟨t, ht, of_decide_eq_true hp⟩

theorem witness_ParametersNeverChange : ∃ t, step { inHold with script := [.powerOn] } = .next t := ⟨_, rfl⟩

theorem witness_PowerOnResetRestoresTheResetValues : { inHold with script := [.powerOn] }.cfgAccepted = true ∧
    { inHold with script := [.powerOn] }.script = .powerOn :: [] :=
  ⟨rfl, rfl⟩

/-- An idle and a running state that meet the invariant and take a step. -/
theorem witness_EveryStepKeepsTheInvariant : BlockInv (sample .ready true) ∧ BlockInv inHold ∧
    (∃ t, step (sample .ready true) = .next t) ∧ ∃ t, step inHold = .next t :=
  ⟨sample_inv [] [] (.inr ⟨rfl, rfl⟩), inHold_inv, ⟨_, rfl⟩, ⟨_, rfl⟩⟩

/-- Each row of the table, and INIT running. -/
theorem witness_AcceptanceRowsOfTheProtocolTable : BlockInv (sample .reset false) ∧ BlockInv (sample .reset true) ∧
    BlockInv (sample .ready true) ∧ (sample .ready true).busy = false ∧ BlockInv initEnd ∧ initEnd.pstate = .initialized :=
  ⟨sample_inv [] [] (.inl rfl), sample_inv [] [] (.inl rfl), sample_inv [] [] (.inr ⟨rfl, rfl⟩), rfl, initEnd_inv, rfl⟩

theorem witness_EveryStepKeepsTheTraceShape : BlockInv (offered .reset false 0x30000000) ∧
    TraceShape (offered .reset false 0x30000000) ∧ ∃ t, step (offered .reset false 0x30000000) = .next t := by
  refine ⟨sample_inv _ [] (.inl rfl), sample_shape _, ?_⟩
  obtain ⟨t, ht, -⟩ := after_next (p := fun t => t.busy)
    (show after (step (offered .reset false 0x30000000)) (fun t => t.busy) = true by decide)
  exact ⟨t, ht⟩

theorem witness_EveryStepGoesOn : BlockInv inHold ∧ inHold.cfgAccepted = true ∧
    ∀ later, inHold.script ≠ .shortHold :: later :=
  ⟨inHold_inv, rfl, fun later h => by simp [inHold, running, sample, State.build, State.afterPowerOn] at h⟩

theorem witness_InitTableCheckMeansItsConstraints : initTableOk WireOps.defaults sampleTable = true := by decide

theorem witness_WindowCheckMeansItsSize : windowOk [0x00, 0x0D] [0x40, 0xFF] = true := by decide

/-- Both sides of the check at the bounds of W and H, a refused window, and a verdict bit that is not set. -/
theorem witness_RefusedConfigurationDoesNotRun :
    { sampleConfig with width := 1, height := 1 }.accepts = true ∧ sampleConfig.accepts = true ∧
    { sampleConfig with width := 385 }.accepts = false ∧ { sampleConfig with height := 169 }.accepts = false ∧
    { sampleConfig with width := 0 }.accepts = false ∧ { sampleConfig with height := 0 }.accepts = false ∧
    { sampleConfig with initTable := [⟨0x11, [], 120⟩] }.accepts = false ∧
    { sampleConfig with winColData := [0x17, 0x23] }.accepts = false ∧
    { sample .reset false with cfgAccepted := false }.cfgAccepted = false := by
  refine ⟨?_, ?_, ?_, ?_, ?_, ?_, ?_, ?_, rfl⟩ <;> decide

end Sys2Proof.Tests
end

section
/-! PROOFS. Scope: the state after power-on, and the build-time check (O51, O58). -/

namespace Sys2Proof.Machine

/-! ### The state after power-on -/

/-- The values of R35 meet the invariant, when a set verdict bit is backed by the check. -/
theorem blockInv_afterPowerOn {c : Config} {accepted : Bool} (hc : accepted = true → c.accepts = true) (n : Nat)
    (stream : List Word) (ack : Bool) (script : List Outside) :
    BlockInv (State.afterPowerOn c accepted n stream ack script) where
  config := hc
  memory := rfl
  pulsed := fun hp => absurd rfl hp
  position := show PState.reset ≠ .initialized by decide
  chipSelect := rfl
  errors := ⟨rfl, rfl, rfl, rfl⟩

/-- The trace after power-on is empty: no pulse, no initialization, no burst. -/
theorem traceShape_afterPowerOn (c : Config) (accepted : Bool) (n : Nat) (stream : List Word) (ack : Bool)
    (script : List Outside) : TraceShape (State.afterPowerOn c accepted n stream ack script) :=
  ⟨0, [], by simp, rfl, fun hq => Bool.noConfusion hq, fun _ => rfl, List.suffix_refl _⟩

/-- Settles O51: both are states after power-on, and the verdict of the check on their configuration is at hand
(`Config.defaults_accepted` for the reset state). -/
theorem invariantsHoldAtReset : Obligations.InvariantsHoldAtReset :=
  ⟨⟨blockInv_afterPowerOn (fun _ => Config.defaults_accepted) .., traceShape_afterPowerOn ..⟩,
    fun _ => ⟨blockInv_afterPowerOn id .., traceShape_afterPowerOn ..⟩⟩

/-! ### The build-time check -/

/-- The size check is the bounds of R9 on W and H. -/
theorem sizeOk_iff (w h : Nat) : sizeOk w h = true ↔ (1 ≤ w ∧ w ≤ 384) ∧ (1 ≤ h ∧ h ≤ 168) := by
  simp only [sizeOk, Bool.and_eq_true, decide_eq_true_eq, and_assoc]
  simp only [panelColumns, panelBands, Nat.reduceMul]

/-- The three parts of the check. -/
theorem accepts_iff (c : Config) : c.accepts = true ↔
    sizeOk c.width c.height = true ∧ initTableOk c.ops c.initTable = true ∧
      windowOk c.winColData c.winRowData = true := by
  simp only [Config.accepts, Bool.and_eq_true, and_assoc]

/-- A block whose latched verdict is not set makes no step (R151, R252; log 8). -/
theorem step_of_not_accepted {s : State} (h : s.cfgAccepted = false) : step s = .refused .badConfiguration := by
  simp [step, h]

/-- Settles O58: the verdict that `State.build` latches is the check's, and without it no step is made. -/
theorem refusedConfigurationDoesNotRun : Obligations.RefusedConfigurationDoesNotRun := by
  refine ⟨fun c => ?_, fun c ws hc => step_of_not_accepted hc, fun s => step_of_not_accepted⟩
  rw [accepts_iff, sizeOk_iff, and_assoc]

end Sys2Proof.Machine
end

section
/-! PROOFS. Scope: one step, as the statements about the state need it. -/

namespace Sys2Proof.Machine

/-! ### What an accepted command changes and leaves alone -/

/-- An accepted command leaves the parameters, the lines, the trace, the inputs and the power-on count alone. -/
theorem Effect.keeps {i : Instr} {s t : State} (e : Effect i s t) :
    t = { s with fb := t.fb, pstate := t.pstate, pulsed := t.pulsed, seq := t.seq, errIllegal := t.errIllegal,
                 errSeq := t.errSeq, errNotInit := t.errNotInit, lastCause := t.lastCause, errword := t.errword } := by
  cases e <;> apply State.ext <;> simp

theorem Effect.cfg {i : Instr} {s t : State} (e : Effect i s t) : t.cfg = s.cfg := by rw [e.keeps]

theorem Effect.cfgAccepted {i : Instr} {s t : State} (e : Effect i s t) : t.cfgAccepted = s.cfgAccepted := by
  rw [e.keeps]

theorem Effect.stream {i : Instr} {s t : State} (e : Effect i s t) : t.stream = s.stream := by rw [e.keeps]

theorem Effect.powerOns {i : Instr} {s t : State} (e : Effect i s t) : t.powerOns = s.powerOns := by rw [e.keeps]

/-- PULSED stays, and PSTATE stays but where INIT starts its list (R25, R29). -/
theorem Effect.protocol {i : Instr} {s t : State} (hc : s.cfg.accepts = true) (e : Effect i s t) :
    t.pulsed = s.pulsed ∧
      (t.pstate = s.pstate ∨
       i = .init ∧ s.pstate = .reset ∧ t.pstate = .initialized ∧
         t.seq = .run (initEvents s.cfg) 0 (primsAt (initEvents s.cfg) 0) .setReady) := by
  cases e with
  | outOfRange => exact ⟨rfl, .inl rfl⟩
  | pixel => exact ⟨rfl, .inl rfl⟩
  | cleared => exact ⟨rfl, .inl rfl⟩
  | resetStarts => rw [startRun_of_ne_nil (resetEvents_ne_nil _)]; exact ⟨rfl, .inl rfl⟩
  | resetRefused => exact ⟨by simp, .inl (by simp)⟩
  | initStarts hp => rw [startRun_of_ne_nil (initEvents_ne_nil hc)]; exact ⟨rfl, .inr ⟨rfl, hp, rfl, rfl⟩⟩
  | initRefused => exact ⟨by simp, .inl (by simp)⟩
  | refreshStarts => rw [startRun_of_ne_nil (refreshEvents_ne_nil _ _)]; exact ⟨rfl, .inl rfl⟩
  | refreshRefused => exact ⟨by simp, .inl (by simp)⟩

/-- Only SETPX and CLEAR write the framebuffer (R24, R50). -/
theorem Effect.fb {i : Instr} {s t : State} (e : Effect i s t) :
    t.fb = s.fb ∨ i = .clear ∨ ∃ x y on, i = .setpx x y on := by
  cases e with
  | outOfRange => exact .inl rfl
  | pixel => exact .inr (.inr ⟨_, _, _, rfl⟩)
  | cleared => exact .inr (.inl rfl)
  | _ => exact .inl (by simp)

/-- The refusals of R200 for a word that decodes as `d`, in the protocol state and PULSED of `s`. -/
def RefusedFor (s : State) (d : Decoded) (c : Cause) : Prop :=
  (∃ why, d = .illegal why) ∧ c = .illegalCommand ∨
  d = .command .reset ∧ s.pstate ≠ .reset ∧ c = .sequenceViolation ∨
  d = .command .init ∧ (s.pstate ≠ .reset ∨ s.pulsed = false) ∧ c = .sequenceViolation ∨
  d = .command .refresh ∧ s.pstate ≠ .ready ∧ c = .notInitialized

/-- An accepted command keeps the error registers, or is refused with the cause of R200. -/
theorem Effect.errors {i : Instr} {s t : State} (e : Effect i s t) :
    (t.errword = s.errword ∧ t.lastCause = s.lastCause ∧ ∀ c, t.err c = s.err c) ∨
      ∃ c, (∀ x y on, i ≠ .setpx x y on) ∧ RefusedFor s (.command i) c ∧ t = refuse c (encode i) s := by
  cases e with
  | outOfRange => exact .inl ⟨rfl, rfl, fun _ => rfl⟩
  | pixel => exact .inl ⟨rfl, rfl, fun c => by cases c <;> rfl⟩
  | cleared => exact .inl ⟨rfl, rfl, fun c => by cases c <;> rfl⟩
  | resetStarts => exact .inl ⟨by simp, by simp, fun c => by simp⟩
  | resetRefused hp => exact .inr ⟨_, by simp, .inr (.inl ⟨rfl, hp, rfl⟩), rfl⟩
  | initStarts => exact .inl ⟨by simp, by simp, fun c => by cases c <;> simp [State.err]⟩
  | initRefused hp =>
    refine .inr ⟨_, by simp, .inr (.inr (.inl ⟨rfl, ?_, rfl⟩)), rfl⟩
    rwa [not_and_or, Bool.not_eq_true] at hp
  | refreshStarts => exact .inl ⟨by simp, by simp, fun c => by simp⟩
  | refreshRefused hp => exact .inr ⟨_, by simp, .inr (.inr (.inr ⟨rfl, hp, rfl⟩)), rfl⟩

/-! ### One step, with the offered word already taken -/

/-- What a step can do: `s0` is the state with the inputs of this step, a taken word removed. -/
inductive StepCase (s t : State) : Prop where
  /-- A block power-on reset takes the step. -/
  | powerOn (later : List Outside) : s.script = .powerOn :: later → t = powerOnReset { s with script := later } →
      StepCase s t
  /-- RUN: the sequencer goes on, and the offered words stay at the port. -/
  | walked (s0 : State) (evs : List BusEvent) (k : Nat) (todo : List Prim) (fin : Finish) :
      (∀ later, s.script ≠ .powerOn :: later) → SameBlock s s0 → s0.stream = s.offered →
      s.seq = .run evs k todo fin → t = seqStep evs k todo fin s0 → StepCase s t
  /-- IDLE, and no command is offered. -/
  | waited : SameBlock s t → s.seq = .idle → StepCase s t
  /-- IDLE, and the offered word is illegal. -/
  | refusedWord (s0 : State) (w : Word) (why : Illegal) : SameBlock s s0 → s.seq = .idle → s.offered = w :: s0.stream →
      decode w = .illegal why → t = refuse .illegalCommand w s0 → StepCase s t
  /-- IDLE, and the offered word is a command. -/
  | accepted (s0 : State) (w : Word) (i : Instr) : SameBlock s s0 → s.seq = .idle → s.offered = w :: s0.stream →
      decode w = .command i → Effect i s0 t → StepCase s t

theorem SameBlock.withStream {s s0 : State} (h : SameBlock s s0) (ws : List Word) :
    SameBlock s { s0 with stream := ws } := by
  obtain ⟨_, ack, script, rfl⟩ := h
  exact ⟨ws, ack, script, rfl⟩

theorem SameBlock.seq {s s0 : State} (h : SameBlock s s0) : s0.seq = s.seq := by
  obtain ⟨_, _, _, rfl⟩ := h
  rfl

theorem SameBlock.cfg {s s0 : State} (h : SameBlock s s0) : s0.cfg = s.cfg := by
  obtain ⟨_, _, _, rfl⟩ := h
  rfl

theorem SameBlock.cfgAccepted {s s0 : State} (h : SameBlock s s0) : s0.cfgAccepted = s.cfgAccepted := by
  obtain ⟨_, _, _, rfl⟩ := h
  rfl

theorem SameBlock.pstate {s s0 : State} (h : SameBlock s s0) : s0.pstate = s.pstate := by
  obtain ⟨_, _, _, rfl⟩ := h
  rfl

theorem SameBlock.pulsed {s s0 : State} (h : SameBlock s s0) : s0.pulsed = s.pulsed := by
  obtain ⟨_, _, _, rfl⟩ := h
  rfl

theorem SameBlock.fbByte {s s0 : State} (h : SameBlock s s0) : s0.fbByte = s.fbByte := by
  obtain ⟨_, _, _, rfl⟩ := h
  exact fbByte_congr rfl rfl

theorem stepCase {s t : State} (h : step s = .next t) : StepCase s t := by
  obtain ⟨-, ⟨later, hs, ht⟩ | ⟨hn, s0, hb, ho, hm⟩⟩ := step_cases h
  · exact .powerOn later hs ht
  · cases hm with
    | progress evs k todo fin hq ht => exact .walked s0 evs k todo fin hn hb ho (hb.seq ▸ hq) ht
    | noCommand hq _ ht => exact .waited (ht ▸ hb) (hb.seq ▸ hq)
    | illegalWord w rest why hq hst hd ht =>
      exact .refusedWord _ w why (hb.withStream rest) (hb.seq ▸ hq) (ho ▸ hst) hd ht
    | command w rest i hq hst hd he => exact .accepted _ w i (hb.withStream rest) (hb.seq ▸ hq) (ho ▸ hst) hd he

/-- Only an accepted configuration makes a step (R151, R252). -/
theorem cfgAccepted_of_step {s t : State} (h : step s = .next t) : s.cfgAccepted = true := (step_cases h).1

theorem step_of_accepted {s : State} (h : s.cfgAccepted = true) : step s = runStep s := by
  simp [step, h]

/-- A block power-on reset takes the whole step (R240). -/
theorem step_of_powerOn {s : State} {later : List Outside} (hc : s.cfgAccepted = true)
    (hs : s.script = .powerOn :: later) : step s = .next (powerOnReset { s with script := later }) := by
  simp only [step_of_accepted hc, runStep, hs, outside]

end Sys2Proof.Machine
end

section
/-! PROOFS. Scope: every step keeps the block's invariant (O52). -/

namespace Sys2Proof.Machine

theorem seqOk_of_idle {s : State} (h : s.seq = .idle) : SeqOk s ↔ s.pstate ≠ .initialized := by
  simp only [SeqOk, h]

theorem midFrame_of_idle {s : State} (h : s.seq = .idle) : midFrame s = false := by
  simp only [midFrame, h]

/-- The invariant in IDLE is about the plain fields alone: nothing runs, and no frame is open. -/
theorem blockInv_of_idle {s : State} (hs : s.seq = .idle) (hc : s.cfgAccepted = true → s.cfg.accepts = true)
    (hm : s.fb.wf = true) (hp : s.pstate ≠ .reset → s.pulsed = true) (hi : s.pstate ≠ .initialized)
    (hcs : s.csAsserted = false) (he : ErrOk s) : BlockInv s where
  config := hc
  memory := hm
  pulsed := hp
  position := (seqOk_of_idle hs).mpr hi
  chipSelect := hcs.trans (midFrame_of_idle hs).symm
  errors := he

/-! ### An accepted command -/

/-- A command accepted in IDLE keeps the invariant. -/
theorem BlockInv.effect {i : Instr} {s t : State} (hi : BlockInv s) (hs : s.seq = .idle) (ha : s.cfgAccepted = true)
    (e : Effect i s t) : BlockInv t := by
  have hcs : s.csAsserted = false := hi.chipSelect.trans (midFrame_of_idle hs)
  have hni : s.pstate ≠ .initialized := (seqOk_of_idle hs).mp hi.position
  cases e with
  | outOfRange => exact hi
  | pixel _ hlt =>
    exact blockInv_of_idle hs hi.config (Memory.wf_insert _ _ hlt hi.memory) hi.pulsed hni hcs hi.errors
  | cleared => exact blockInv_of_idle hs hi.config wf_zeroCells hi.pulsed hni hcs hi.errors
  | resetStarts hp =>
    exact blockInv_startRun (resetEvents_ne_nil _) hi.config hi.memory hi.pulsed hcs hi.errors ⟨hp, rfl⟩
  | initStarts _ hq =>
    exact blockInv_startRun (initEvents_ne_nil (hi.config ha)) hi.config hi.memory (fun _ => hq) hcs hi.errors ⟨rfl, rfl⟩
  | refreshStarts hp =>
    exact blockInv_startRun (refreshEvents_ne_nil _ _) hi.config hi.memory hi.pulsed hcs hi.errors ⟨hp, rfl⟩
  | resetRefused => exact hi.refuse _ _
  | initRefused => exact hi.refuse _ _
  | refreshRefused => exact hi.refuse _ _

/-! ### Chip select through the primitives of a frame (R141, R166) -/

theorem singleton_suffix {p x : Prim} {rest : List Prim} (h : p :: rest <:+ [x]) : p = x ∧ rest = [] := by
  simpa [List.suffix_cons_iff] using h

/-- Among the transfers that end a frame only the last primitive deselects. -/
theorem transfers_suffix {p : Prim} {rest : List Prim} {bytes : List Byte}
    (h : p :: rest <:+ bytes.map Prim.xfer ++ [.sel false]) :
    (rest ≠ [] ∧ ∃ b, p = .xfer b) ∨ (rest = [] ∧ p = .sel false) := by
  induction bytes with
  | nil =>
    obtain ⟨rfl, rfl⟩ := singleton_suffix h
    exact .inr ⟨rfl, rfl⟩
  | cons b bytes ih =>
    rw [List.map_cons, List.cons_append, List.suffix_cons_iff] at h
    rcases h with h | h
    · obtain ⟨rfl, rfl⟩ := List.cons.inj h
      exact .inl ⟨by simp, b, rfl⟩
    · exact ih h

/-- The next primitive of a frame leaves chip select asserted exactly when more primitives of the frame follow. -/
theorem drive_frame_csAsserted {dc : DC} {bytes : List Byte} {p : Prim} {rest : List Prim} {s : State}
    (h : p :: rest <:+ (BusEvent.frame dc bytes).prims)
    (hcs : s.csAsserted = decide ((p :: rest).length < (BusEvent.frame dc bytes).prims.length)) :
    (p.drive s).csAsserted = decide (rest ≠ []) := by
  rw [frame_prims, List.suffix_cons_iff, List.suffix_cons_iff] at h
  rcases h with h | h | h
  · obtain ⟨rfl, rfl⟩ := List.cons.inj h
    rfl
  · obtain ⟨rfl, rfl⟩ := List.cons.inj h
    simp [Prim.drive, hcs, frame_prims]
  · have hlt : s.csAsserted = true := by
      have hle := h.length_le
      rw [hcs, frame_prims, decide_eq_true_eq, List.length_cons (a := Prim.sel true), List.length_cons (a := Prim.mode dc)]
      omega
    obtain ⟨hne, b, rfl⟩ | ⟨rfl, rfl⟩ := transfers_suffix h
    · simp [Prim.drive, hlt, hne]
    · rfl

/-- The next primitive of any event leaves chip select asserted exactly when more primitives of the event follow: an event
that is no frame is one primitive, which leaves chip select deasserted. -/
theorem drive_csAsserted {s : State} {evs : List BusEvent} {k : Nat} {p : Prim} {rest : List Prim} {fin : Finish}
    {e : BusEvent} (hs : s.seq = .run evs k (p :: rest) fin) (he : evs[k]? = some e) (h : p :: rest <:+ e.prims)
    (hcs : s.csAsserted = midFrame s) : (p.drive s).csAsserted = decide (rest ≠ []) := by
  cases e with
  | frame dc bytes => exact drive_frame_csAsserted h (by simpa only [midFrame, hs, he] using hcs)
  | rst level =>
    obtain ⟨rfl, rfl⟩ := singleton_suffix h
    simpa [Prim.drive, midFrame, hs, he] using hcs
  | wait ms =>
    obtain ⟨rfl, rfl⟩ := singleton_suffix h
    simpa [Prim.drive, midFrame, hs, he] using hcs

/-- With some primitives of an event acknowledged and some not, a frame is open. -/
theorem midFrame_inside {s : State} {evs : List BusEvent} {k : Nat} {p q : Prim} {rest : List Prim} {fin : Finish}
    {e : BusEvent} (hs : s.seq = .run evs k (q :: rest) fin) (he : evs[k]? = some e) (h : p :: q :: rest <:+ e.prims) :
    midFrame s = true := by
  have hlt : (q :: rest).length < e.prims.length := h.length_le
  cases e with
  | frame dc bytes => simpa only [midFrame, hs, he, decide_eq_true_eq] using hlt
  | rst level => exact absurd (singleton_suffix h).2 (by simp)
  | wait ms => exact absurd (singleton_suffix h).2 (by simp)

/-! ### A step of the sequencer -/

theorem todoOk_of_some {evs : List BusEvent} {k : Nat} {todo : List Prim} {e : BusEvent} (he : evs[k]? = some e) :
    TodoOk evs k todo ↔ todo ≠ [] ∧ todo <:+ e.prims := by
  simp only [TodoOk, he]

theorem todoOk_of_none {evs : List BusEvent} {k : Nat} {todo : List Prim} (he : evs[k]? = none) :
    TodoOk evs k todo ↔ k = evs.length ∧ todo = [] := by
  simp only [TodoOk, he]

theorem seqOk_of_run {s : State} {evs : List BusEvent} {k : Nat} {todo : List Prim} {fin : Finish}
    (h : s.seq = .run evs k todo fin) : SeqOk s ↔ TodoOk evs k todo ∧ RunOk s evs fin := by
  simp only [SeqOk, h]

/-- The final update of a list meets the protocol state it ran in: IDLE is reached in RESET or READY, and READY only after a
pulse (R176). -/
theorem BlockInv.finish {s : State} {evs : List BusEvent} {fin : Finish} (hi : BlockInv s) (hr : RunOk s evs fin)
    (hcs : s.csAsserted = false) : BlockInv { fin.apply s with seq := .idle } := by
  cases fin with
  | nothing =>
    have hp : s.pstate = .ready := hr.1
    exact blockInv_of_idle rfl hi.config hi.memory hi.pulsed (by simp [Finish.apply, hp]) hcs hi.errors
  | setPulsed =>
    have hp : s.pstate = .reset := hr.1
    exact blockInv_of_idle rfl hi.config hi.memory (fun _ => rfl) (by simp [Finish.apply, hp]) hcs hi.errors
  | setReady =>
    have hq : s.pulsed = true := hi.pulsed (by simp [hr.1])
    exact blockInv_of_idle rfl hi.config hi.memory (fun _ => hq) (by simp [Finish.apply]) hcs hi.errors

/-- Acknowledging a primitive keeps the invariant, when the new position fits the list and chip select fits the new
position. -/
theorem BlockInv.acknowledged {s : State} {evs : List BusEvent} {fin : Finish} (hi : BlockInv s) (hr : RunOk s evs fin)
    (p : Prim) (k : Nat) (todo : List Prim) (l : List BusEvent) (hk : TodoOk evs k todo)
    (hcs : (p.drive s).csAsserted = midFrame { p.drive s with seq := .run evs k todo fin, trace := l }) :
    BlockInv { p.drive s with seq := .run evs k todo fin, trace := l } where
  config := by simpa using hi.config
  memory := by simpa using hi.memory
  pulsed := by simpa using hi.pulsed
  position := (seqOk_of_run rfl).mpr ⟨hk, hr.congr (by simp) (by simp) (by simp) (by simp)⟩
  chipSelect := hcs
  errors := by cases p <;> exact hi.errors

/-- A sequencer step keeps the invariant. -/
theorem blockInv_seqStep {s : State} {evs : List BusEvent} {k : Nat} {todo : List Prim} {fin : Finish} (hi : BlockInv s)
    (hs : s.seq = .run evs k todo fin) : BlockInv (seqStep evs k todo fin s) := by
  obtain ⟨htodo, hrun⟩ := (seqOk_of_run hs).mp hi.position
  cases seqStep_cases evs k todo fin s with
  | finished hn ht =>
    rw [ht]
    exact hi.finish hrun (hi.chipSelect.trans (by simp only [midFrame, hs, hn]))
  | waiting _ _ _ ht => rwa [ht]
  | advanced e p q rest he _ htd ht =>
    subst htd
    obtain ⟨-, hsuf⟩ := (todoOk_of_some he).mp htodo
    have hcs := drive_csAsserted hs he hsuf hi.chipSelect
    rw [ht]
    refine hi.acknowledged hrun p k (q :: rest) (p.drive s).trace
      ((todoOk_of_some he).mpr ⟨by simp, (List.suffix_cons _ _).trans hsuf⟩) ?_
    exact hcs.trans (midFrame_inside rfl he hsuf).symm
  | completed e p he _ htd ht =>
    subst htd
    obtain ⟨-, hsuf⟩ := (todoOk_of_some he).mp htodo
    have hcs := drive_csAsserted hs he hsuf hi.chipSelect
    have hk : k < evs.length := (List.getElem?_eq_some_iff.mp he).1
    rw [ht]
    exact hi.acknowledged hrun p (k + 1) _ _ (todoOk_primsAt hk) (hcs.trans (midFrame_start rfl).symm)
  | nothingLeft e he _ htd _ => exact absurd htd ((todoOk_of_some he).mp htodo).1

/-- Settles O52, by the cases of a step: the sequencer's step and the accepted command carry the content, and a power-on
reset ends in a state after power-on. -/
theorem everyStepKeepsTheInvariant : Obligations.EveryStepKeepsTheInvariant := by
  intro s t hi h
  have ha := cfgAccepted_of_step h
  cases stepCase h with
  | powerOn later _ ht => exact ht ▸ blockInv_afterPowerOn hi.config ..
  | walked s0 evs k todo fin _ hb _ hs ht => exact ht ▸ blockInv_seqStep (hi.inputs hb) (hb.seq.trans hs)
  | waited hb => exact hi.inputs hb
  | refusedWord s0 w _ hb _ _ _ ht => exact ht ▸ (hi.inputs hb).refuse .illegalCommand w
  | accepted s0 w i hb hs _ _ he => exact (hi.inputs hb).effect (hb.seq.trans hs) (hb.cfgAccepted.trans ha) he

end Sys2Proof.Machine
end

section
/-! PROOFS. Scope: what a step can change in the state, and the STATUS word (O9, O12 to O14, O42 to O47, O49, O50). -/

namespace Sys2Proof.Machine

/-! ### STATUS (R26) -/

/-- Settles O49: the reset state is written out in `State.afterPowerOn`. -/
theorem resetStateHasTheResetValues : Obligations.ResetStateHasTheResetValues :=
  ⟨rfl, rfl, rfl, rfl, rfl, rfl, rfl, rfl, rfl, rfl, rfl, rfl, fun _ => rfl, rfl⟩

theorem status_pstate (s : State) : s.status.extractLsb' 0 2 = s.pstate.code := by
  ext k hk
  simp only [State.status, BitVec.getElem_extractLsb', BitVec.getLsbD_append]
  simp [hk]

theorem status_lastCause (s : State) : s.status.extractLsb' 8 3 = causeCode s.lastCause := by
  ext k hk
  simp only [State.status, BitVec.getElem_extractLsb', BitVec.getLsbD_append]
  interval_cases k <;> simp

/-- The bits of STATUS above PSTATE and outside LAST_CAUSE, by their places. -/
theorem status_getLsbD (s : State) :
    s.status.getLsbD 2 = s.busy ∧ s.status.getLsbD 3 = s.pulsed ∧ s.status.getLsbD 4 = s.errIllegal ∧
      s.status.getLsbD 5 = s.errSeq ∧ s.status.getLsbD 6 = s.errNotInit ∧ s.status.getLsbD 7 = false := by
  simp only [State.status, BitVec.getLsbD_append]
  simp

theorem status_reserved (s : State) : s.status.extractLsb' 11 21 = 0#21 := by
  ext k hk
  simp only [State.status, BitVec.getElem_extractLsb', BitVec.getLsbD_append]
  interval_cases k <;> simp

/-- Settles O50, field by field. -/
theorem statusShowsItsFields : Obligations.StatusShowsItsFields := by
  intro s
  obtain ⟨hbusy, hpulsed, hillegal, hseq, hinit, hzero⟩ := status_getLsbD s
  exact ⟨status_pstate s, hbusy, by rw [hbusy, State.cmdReady, Bool.not_not], hpulsed, hillegal, hseq, hinit, hzero,
    status_lastCause s, status_reserved s, rfl, rfl, rfl, rfl⟩

/-! ### The words of commands -/

theorem decode_encode {i : Instr} (h : i.wf = true) : decode (encode i) = .command i := by
  cases i with
  | setpx x y on =>
    simp only [Instr.wf, Bool.and_eq_true, decide_eq_true_eq] at h
    simp [decode, decodeP, encode_setpx_op, encode_setpx_rsv, encode_setpx_on, encode_setpx_x x y on h.1,
      encode_setpx_y x y on h.2]
  | clear => decide
  | reset => decide
  | init => decide
  | refresh => decide

theorem tableWord_toNat (w : Word) : tableWord 32 w.toNat = w := by
  rw [tableWord, Nat.mod_eq_of_lt w.isLt, BitVec.ofNat_toNat, BitVec.setWidth_eq]

/-- A word is its OP and its other 28 bits (R70, R72). -/
theorem eq_of_formatZ_fields {w v : Word} (ho : opField w = opField v) (hz : zRsvField w = 0) (hv : zRsvField v = 0) :
    w = v := by
  obtain ⟨wo, -, wz, -⟩ := field_values w
  obtain ⟨vo, -, vz, -⟩ := field_values v
  have hop := congrArg BitVec.toNat ho
  have hres := congrArg BitVec.toNat (hz.trans hv.symm)
  exact BitVec.eq_of_toNat_eq (by omega)

theorem decodeZ_command {w : Word} {i j : Instr} (h : decodeZ w i = .command j) : zRsvField w = 0 ∧ i = j := by
  unfold decodeZ at h
  split at h
  · exact ⟨‹_›, Decoded.command.inj h⟩
  · cases h

/-- A command without operands has one word (R72, R76). -/
theorem encode_of_decode_formatZ {w : Word} {i : Instr} (hi : ∀ x y on, i ≠ .setpx x y on) (h : decode w = .command i) :
    encode i = w := by
  have word : ∀ {j : Instr}, opField w = opField (encode j) → zRsvField (encode j) = 0 → decodeZ w j = .command i →
      encode i = w := by
    intro j ho hv hd
    obtain ⟨hz, rfl⟩ := decodeZ_command hd
    exact (eq_of_formatZ_fields ho hz hv).symm
  unfold decode at h
  split at h
  · unfold decodeP at h
    split at h
    · exact absurd (Decoded.command.inj h).symm (hi _ _ _)
    · cases h
  · split at h
    · exact word (j := .clear) ‹_› (by decide) h
    · split at h
      · exact word (j := .reset) ‹_› (by decide) h
      · split at h
        · exact word (j := .init) ‹_› (by decide) h
        · split at h
          · exact word (j := .refresh) ‹_› (by decide) h
          · cases h

/-! ### The step as the outside world and the port drive it -/

/-- An idle block runs the command on its port. -/
theorem act_of_command {s : State} {w : Word} {rest : List Word} {i : Instr} (hs : s.seq = .idle)
    (hst : s.stream = w :: rest) (hd : decode w = .command i) : act s = exec i { s with stream := rest } := by
  simp only [act, hs, hst, accept, hd]

theorem outside_shortHold {s : State} (h : ∀ ms, s.request ≠ some (.wait ms)) : outside .shortHold s = act s := by
  cases hr : s.request with
  | none => simp only [outside, hr]
  | some p =>
    cases p with
    | wait ms => exact absurd hr (h ms)
    | _ => simp only [outside, hr]

/-- Settles O12: the step is the outside event and then the block's own step. -/
theorem eventsShortOfPowerOnDriveOnlyTheInputs : Obligations.EventsShortOfPowerOnDriveOnlyTheInputs := by
  intro s later ws on hc
  refine ⟨?_, ?_, ?_, fun hr => ?_⟩
  · exact step_of_accepted hc
  · exact step_of_accepted hc
  · exact step_of_accepted hc
  · exact (step_of_accepted (s := { s with script := .shortHold :: later }) hc).trans
      (outside_shortHold (s := { s with script := later }) hr)

/-- Settles O9, with an empty script and with a quiet event at its head. -/
theorem stepRunsTheDecodedInstruction : Obligations.StepRunsTheDecodedInstruction := by
  intro s w rest later i hc hs hst hscript hd
  rw [step_of_accepted hc]
  rcases hscript with ⟨hnil, rfl⟩ | hquiet
  · have hrun : runStep s = act s := by simp only [runStep, hnil]
    rw [hrun, act_of_command hs hst hd, hnil]
  · simp only [runStep, hquiet]
    exact act_of_command hs hst hd

/-- Settles O14: the placed word decodes to the instruction. -/
theorem placedWordIsRunNext : Obligations.PlacedWordIsRunNext := by
  intro s i hc hi
  refine stepRunsTheDecodedInstruction (s.withFetchWord 32 (encode i).toNat) (encode i) s.stream.tail [] i hc rfl ?_
    (.inl ⟨rfl, rfl⟩) (decode_encode hi)
  simp only [State.withFetchWord, tableWord_toNat]

/-- Settles O47: neither the sequencer nor a command nor a power-on reset writes them. -/
theorem parametersNeverChange : Obligations.ParametersNeverChange := by
  intro s t h
  cases stepCase h with
  | powerOn later _ ht => exact ht ▸ ⟨rfl, rfl⟩
  | walked s0 evs k todo fin _ hb _ _ ht => simp [ht, hb.cfg, hb.cfgAccepted]
  | waited hb => exact ⟨hb.cfg, hb.cfgAccepted⟩
  | refusedWord s0 w _ hb _ _ _ ht => simp [ht, hb.cfg, hb.cfgAccepted]
  | accepted s0 w i hb _ _ _ he => exact ⟨he.cfg.trans hb.cfg, he.cfgAccepted.trans hb.cfgAccepted⟩

/-! ### A busy block -/

theorem busy_iff (s : State) : s.busy = true ↔ s.seq ≠ .idle := by
  cases hs : s.seq <;> simp [State.busy, hs]

/-- Settles O13: of the cases of a step only the sequencer's is one of a busy block. -/
theorem busyBlockHoldsTheCommand : Obligations.BusyBlockHoldsTheCommand := by
  refine ⟨fun i s hbusy => exec_of_busy i ((busy_iff s).mp hbusy), fun s t hbusy h hn => ?_⟩
  have hs : s.seq ≠ .idle := (busy_iff s).mp hbusy
  cases stepCase h with
  | powerOn later hp => exact absurd hp (hn later)
  | walked s0 evs k todo fin _ hb ho _ ht =>
    subst ht
    have hfb : ∀ a, (seqStep evs k todo fin s0).fbByte a = s.fbByte a := fun a => by
      rw [fbByte_congr (seqStep_fb ..) (seqStep_powerOns ..), hb.fbByte]
    simp [ho, hfb, hb.fields]
  | waited _ hi => exact absurd hi hs
  | refusedWord _ _ _ _ hi => exact absurd hi hs
  | accepted _ _ _ _ hi => exact absurd hi hs

/-! ### The error registers (R26, R27, R205) -/

/-- A step short of a power-on reset keeps the error registers, or refuses the offered word with the cause of R200. -/
theorem step_errors {s t : State} (h : step s = .next t) (hn : ∀ later, s.script ≠ .powerOn :: later) :
    (t.errword = s.errword ∧ t.lastCause = s.lastCause ∧ ∀ c, t.err c = s.err c) ∨
      (s.seq = .idle ∧ ∃ s0 w c, SameBlock s s0 ∧ s.offered = w :: s0.stream ∧ RefusedFor s (decode w) c ∧
        t = refuse c w s0) := by
  cases stepCase h with
  | powerOn later hp => exact absurd hp (hn later)
  | walked s0 evs k todo fin _ hb _ _ ht => left; simp [ht, hb.fields]
  | waited hb => left; simp [hb.fields]
  | refusedWord s0 w why hb hs ho hd ht => exact .inr ⟨hs, s0, w, _, hb, ho, .inl ⟨⟨why, hd⟩, rfl⟩, ht⟩
  | accepted s0 w i hb hs ho hd he =>
    rcases he.errors with ⟨hw, hl, hc⟩ | ⟨c, hi, hr, ht⟩
    · left
      simp [hw, hl, hc, hb.fields]
    · rw [encode_of_decode_formatZ hi hd] at ht
      refine .inr ⟨hs, s0, w, c, hb, ho, ?_, ht⟩
      simpa only [RefusedFor, hd, hb.fields] using hr

/-- Settles O44: a refusal only sets bits, and no other case of a step touches them. -/
theorem stickyBitsStay : Obligations.StickyBitsStay := by
  refine ⟨fun s t h hn c hc => ?_, fun c c' w s => ⟨err_refuse c c' w s, rfl, rfl⟩⟩
  rcases step_errors h hn with ⟨-, -, herr⟩ | ⟨-, s0, w, c', hb, -, -, rfl⟩
  · rw [herr, hc]
  · simp [err_refuse, hb.fields, hc]

/-- Settles O45: the refusal's three writes, written out over the state before the step. -/
theorem errorRegistersRecordTheRefusedWord : Obligations.ErrorRegistersRecordTheRefusedWord := by
  intro s t h hn
  rcases step_errors h hn with hkept | ⟨hs, s0, w, c, hb, ho, hr, rfl⟩
  · exact .inl hkept
  · refine .inr ⟨hs, w, c, by simpa using ho, hr, ?_, by simp [err_refuse], fun a => ?_⟩
    · obtain ⟨_, _, _, rfl⟩ := hb
      apply State.ext <;> simp
    · rw [fbByte_congr (refuse_fb ..) (refuse_powerOns ..), hb.fbByte]

/-! ### The framebuffer (R24, R50) -/

/-- Settles O46: every other case of a step leaves the written bytes and the power-on count alone. -/
theorem onlyPixelCommandsWriteTheFramebuffer : Obligations.OnlyPixelCommandsWriteTheFramebuffer := by
  intro s t h hn ⟨a, ha⟩
  have differs : ∀ {s0 : State}, SameBlock s s0 → t.fb = s0.fb → t.powerOns = s0.powerOns → False := fun hb hf hp =>
    ha (by rw [fbByte_congr hf hp, hb.fbByte])
  cases stepCase h with
  | powerOn later hp => exact absurd hp (hn later)
  | walked s0 evs k todo fin _ hb _ _ ht => exact (differs hb (by simp [ht]) (by simp [ht])).elim
  | waited hb => exact (differs hb rfl rfl).elim
  | refusedWord s0 w _ hb _ _ _ ht => exact (differs hb (by simp [ht]) (by simp [ht])).elim
  | accepted s0 w i hb hs ho hd he =>
    rcases he.fb with hf | hi
    · exact (differs hb hf he.powerOns).elim
    · exact ⟨hs, w, i, he.stream ▸ ho, hd, hi⟩

/-! ### The protocol state and PULSED (R25, R29) -/

/-- From a state that meets the invariant, a step in RUN keeps PSTATE and PULSED, or it ends one of the three lists and applies
its final update. -/
theorem seqStep_protocol_of_inv {s s0 : State} {evs : List BusEvent} {k : Nat} {todo : List Prim} {fin : Finish}
    (hi : BlockInv s) (hb : SameBlock s s0) (hs : s.seq = .run evs k todo fin) :
    ((seqStep evs k todo fin s0).pstate = s.pstate ∧ (seqStep evs k todo fin s0).pulsed = s.pulsed) ∨
      (k = evs.length ∧ todo = [] ∧ RunOk s evs fin ∧
        seqStep evs k todo fin s0 = { fin.apply s0 with seq := .idle }) := by
  obtain ⟨htodo, hrun⟩ := (seqOk_of_run hs).mp hi.position
  rcases seqStep_protocol evs k todo fin s0 with ⟨hp, hq⟩ | ⟨hnone, ht⟩
  · exact .inl (⟨hp.trans hb.pstate, hq.trans hb.pulsed⟩)
  · obtain ⟨hk, hnil⟩ := (todoOk_of_none hnone).mp htodo
    exact .inr ⟨hk, hnil, hrun, ht⟩

/-- Settles O42: of the cases of a step only INIT's acceptance, the end of INIT's list and a power-on reset write PSTATE. -/
theorem protocolStateChangesOnlyThus : Obligations.ProtocolStateChangesOnlyThus := by
  refine ⟨fun s t hi h hne => ?_, rfl, rfl, rfl, fun s => ⟨status_pstate s, ?_⟩⟩
  · cases stepCase h with
    | powerOn later hp ht => exact .inr (.inr ⟨by simp [ht], later, hp⟩)
    | walked s0 evs k todo fin _ hb _ hs ht =>
      subst ht
      rcases seqStep_protocol_of_inv hi hb hs with ⟨hp, -⟩ | ⟨hk, rfl, hr, ht⟩
      · exact absurd hp hne
      · rw [ht] at hne ⊢
        cases fin with
        | nothing => exact absurd hb.pstate hne
        | setPulsed => exact absurd hb.pstate hne
        | setReady =>
          obtain ⟨hp, rfl⟩ := hr
          exact .inr (.inl ⟨hp, rfl, rfl, k, hs, hk⟩)
    | waited hb => exact absurd hb.pstate hne
    | refusedWord s0 w _ hb _ _ _ ht => exact absurd (by simp [ht, hb.pstate]) hne
    | accepted s0 w i hb hs ho hd he =>
      obtain ⟨-, hp | ⟨rfl, hp, hp', hseq⟩⟩ := he.protocol (hb.cfg ▸ hi.config (cfgAccepted_of_step h))
      · exact absurd (hp.trans hb.pstate) hne
      · rw [hb.pstate] at hp
        rw [hb.cfg] at hseq
        exact .inl ⟨hp, hp', hs, ⟨w, he.stream ▸ ho, hd⟩, _, hseq⟩
  · rw [status_pstate]
    cases s.pstate <;> decide

/-- Settles O43: of the cases of a step only the end of RESET's list sets PULSED, and only a power-on reset clears it. -/
theorem pulsedChangesOnlyThus : Obligations.PulsedChangesOnlyThus := by
  refine ⟨rfl, fun s t k hs hk hn h => ?_, fun s t hi h hne => ?_, fun s t later hp h => ?_⟩
  · cases stepCase h with
    | powerOn later hp => exact absurd hp (hn later)
    | walked s0 evs k' todo fin _ hb _ hs' ht =>
      obtain ⟨rfl, rfl, rfl, rfl⟩ := Seq.run.inj (hs.symm.trans hs')
      rw [ht, seqStep, List.getElem?_eq_none (Nat.le_of_eq hk.symm)]
      exact ⟨rfl, rfl⟩
    | waited _ hi => rw [hs] at hi; cases hi
    | refusedWord _ _ _ _ hi => rw [hs] at hi; cases hi
    | accepted _ _ _ _ hi => rw [hs] at hi; cases hi
  · cases stepCase h with
    | powerOn later hp ht => exact .inr ⟨by simp [ht], later, hp⟩
    | walked s0 evs k todo fin _ hb _ hs ht =>
      subst ht
      rcases seqStep_protocol_of_inv hi hb hs with ⟨-, hq⟩ | ⟨hk, rfl, hr, ht⟩
      · exact absurd hq hne
      · rw [ht] at hne ⊢
        cases fin with
        | nothing => exact absurd hb.pulsed hne
        | setReady => exact absurd hb.pulsed hne
        | setPulsed =>
          obtain ⟨-, rfl⟩ := hr
          exact .inl ⟨rfl, rfl, k, hs, hk⟩
    | waited hb => exact absurd hb.pulsed hne
    | refusedWord s0 w _ hb _ _ _ ht => exact absurd (by simp [ht, hb.pulsed]) hne
    | accepted s0 w i hb _ _ _ he =>
      obtain ⟨hq, -⟩ := he.protocol (hb.cfg ▸ hi.config (cfgAccepted_of_step h))
      exact absurd (hq.trans hb.pulsed) hne
  · rw [step_of_powerOn (cfgAccepted_of_step h) hp] at h
    cases h
    rfl

end Sys2Proof.Machine
end

section
/-! PROOFS. Scope: a started event list runs to its end (O31), and the pixel that SETPX writes (O18). -/

namespace Sys2Proof.Machine

/-! ### A whole event list -/

theorem length_eventPrims_cons (e : BusEvent) (es : List BusEvent) :
    (eventPrims (e :: es)).length = e.prims.length + (eventPrims es).length := by
  rw [eventPrims_cons, List.length_append]

/-- An undisturbed block at the start of event `k` walks the remaining events `rest` to the end of the list, one step per
primitive; the transport acknowledges exactly their primitives. -/
theorem run_events {evs : List BusEvent} {fin : Finish} (rest : List BusEvent) {k : Nat} {s : State}
    (hr : evs.drop k = rest) (hk : k ≤ evs.length) (hu : Undisturbed s)
    (hs : s.seq = .run evs k (primsAt evs k) fin) :
    ∃ t : State, Host.Core.run Sys2Proof.core (eventPrims rest).length s = .next t ∧
      t = { driveAll (eventPrims rest) s with seq := .run evs evs.length [] fin, trace := s.trace ++ rest } ∧
      Undisturbed t ∧ ackedPrims (eventPrims rest).length s = eventPrims rest := by
  induction rest generalizing k s with
  | nil =>
    have hend : k = evs.length := Nat.le_antisymm hk (List.drop_eq_nil_iff.mp hr)
    subst hend
    have hseq : s.seq = .run evs evs.length [] fin := by rw [hs, primsAt_of_none (by simp)]
    refine ⟨s, rfl, ?_, hu, rfl⟩
    rw [eventPrims_nil, driveAll_nil, List.append_nil, ← hseq]
  | cons e rest ih =>
    have he : evs[k]? = some e := by rw [← List.head?_drop, hr, List.head?_cons]
    have hnext : evs.drop (k + 1) = rest := by rw [← List.tail_drop, hr, List.tail_cons]
    have hlt : k < evs.length := (List.getElem?_eq_some_iff.mp he).1
    rw [primsAt_of_some he] at hs
    obtain ⟨u, hrun, hu1, hund, hack⟩ := run_event he e.prims (prims_ne_nil e) hu hs
    obtain ⟨t, hrun', ht, hundt, hack'⟩ := ih hnext hlt hund (by rw [hu1])
    rw [length_eventPrims_cons]
    refine ⟨t, (run_add hrun _).trans hrun', ?_, hundt, ?_⟩
    · rw [ht, hu1, driveAll_with, eventPrims_cons, driveAll_append]
      simp
    · rw [ackedPrims_add _ hrun, hack, hack', eventPrims_cons]

/-- At the end of the list one more step applies the final update. -/
theorem step_of_list_end {s : State} {evs : List BusEvent} {fin : Finish} (hu : Undisturbed s)
    (hs : s.seq = .run evs evs.length [] fin) : step s = .next { fin.apply s with seq := .idle } := by
  rw [step_of_run hu hs, seqStep, List.getElem?_eq_none (Nat.le_refl _)]

/-- The final update does not look at the position or the trace. -/
theorem finish_with (fin : Finish) (s : State) (q : Seq) (l : List BusEvent) :
    fin.apply { s with seq := q, trace := l } = { fin.apply s with seq := q, trace := l } := by
  cases fin <;> rfl

/-- Settles O31: all events of the list, then the step that applies the final update. -/
theorem eventListRunsToCompletion : Obligations.EventListRunsToCompletion := by
  intro s evs fin hu hs
  obtain ⟨u, hrun, hu1, hund, -⟩ := run_events evs List.drop_zero (Nat.zero_le _) hu hs
  have hlast : step u = .next { fin.apply u with seq := .idle } := step_of_list_end hund (by rw [hu1])
  refine ⟨_, (run_add hrun 1).trans (run_succ hlast 0), ?_⟩
  rw [hu1, finish_with]

/-! ### The pixel that SETPX writes (R100 to R102) -/

theorem pixelOffset_eq (x y : Nat) : pixelOffset x y = y / 8 * panelColumns + x := by
  rw [pixelOffset, Nat.shiftRight_eq_div_pow]

theorem pixelBit_eq (y : Nat) : pixelBit y = y % 8 := Nat.and_two_pow_sub_one_eq_mod y 3

/-- A pixel's value is the bit of its byte (R24, R52). -/
theorem pixel_eq (s : State) (x y : Nat) : s.pixel x y = (s.fbByte (pixelOffset x y)).getLsbD (pixelBit y) := by
  rw [State.pixel, pixelOffset_eq, pixelBit_eq]

theorem pixelBit_lt (y : Nat) : pixelBit y < 8 := pixelBit_eq y ▸ Nat.mod_lt _ (by decide)

/-- The mask has exactly the pixel's bit set (R102). -/
theorem pixelMask_getLsbD (y j : Nat) : (pixelMask y).getLsbD j = decide (j = pixelBit y) := by
  rw [pixelMask, ← BitVec.twoPow_eq, BitVec.getLsbD_twoPow, decide_eq_true (pixelBit_lt y), Bool.true_and,
    decide_eq_decide]
  exact eq_comm

/-- The new byte has the value `on` at the pixel's bit and the old bits elsewhere. -/
theorem setPixelByte_getLsbD (old : Byte) (y : Nat) (on : Bool) {j : Nat} (hj : j < 8) :
    (setPixelByte old y on).getLsbD j = if j = pixelBit y then on else old.getLsbD j := by
  cases on with
  | true =>
    rw [setPixelByte, if_pos rfl, BitVec.getLsbD_or, pixelMask_getLsbD]
    split <;> simp [*]
  | false =>
    rw [setPixelByte, if_neg Bool.false_ne_true, BitVec.getLsbD_and, BitVec.getLsbD_not, pixelMask_getLsbD]
    split <;> simp [*]

/-- Inside the panel two pixels that share their byte and bit are one (R101). -/
theorem pixel_place_inj {x y x' y' : Nat} (hx : x < 384) (hx' : x' < 384) (ho : pixelOffset x' y' = pixelOffset x y)
    (hb : pixelBit y' = pixelBit y) : x' = x ∧ y' = y := by
  simp only [pixelOffset_eq, pixelBit_eq, panelColumns] at ho hb
  omega

/-- Writing one pixel's byte sets that pixel and leaves the others (R100). -/
theorem pixel_fbWrite (s : State) (on : Bool) {x y x' y' : Nat} (hx : x < 384) (hx' : x' < 384) :
    (s.fbWrite (pixelOffset x y) (setPixelByte (s.fbByte (pixelOffset x y)) y on)).pixel x' y' =
      if x' = x ∧ y' = y then on else s.pixel x' y' := by
  rw [pixel_eq, pixel_eq]
  by_cases ho : pixelOffset x' y' = pixelOffset x y
  · have hbit : pixelBit y' = pixelBit y ↔ x' = x ∧ y' = y :=
      ⟨pixel_place_inj hx hx' ho, fun h => by rw [h.2]⟩
    rw [ho, fbByte_fbWrite_self, setPixelByte_getLsbD _ _ _ (pixelBit_lt y')]
    simp only [hbit]
  · have hne : ¬(x' = x ∧ y' = y) := fun h => ho (by rw [h.1, h.2])
    rw [fbByte_fbWrite_other _ _ ho, if_neg hne]

/-- Settles O18: the pixel lies in the panel, so SETPX is the write of its byte. -/
theorem setpxChangesOnlyItsPixel : Obligations.SetpxChangesOnlyItsPixel := by
  intro s t x y on hs hc hx hy he x' y' hx' _
  obtain ⟨hw, -⟩ := (sizeOk_iff _ _).mp ((accepts_iff _).mp hc).1
  cases exec_idle_effect hs he with
  | outOfRange hr => simp [inRange, hx, hy] at hr
  | pixel => exact pixel_fbWrite s on (by omega) hx'

end Sys2Proof.Machine
end

section
/-! PROOFS. Scope: what the transport acknowledges while a started event list runs (O32). -/

namespace Sys2Proof.Machine

/-- Past the last event the block requests no primitive (R31). -/
theorem request_of_list_end {s : State} {evs : List BusEvent} {todo : List Prim} {fin : Finish}
    (hs : s.seq = .run evs evs.length todo fin) : s.request = none := by
  simp [State.request, hs]

/-- The completion step acknowledges nothing: it only applies the final update (R22). -/
theorem ackedPrims_of_list_end {s : State} {evs : List BusEvent} {fin : Finish} (hu : Undisturbed s)
    (hs : s.seq = .run evs evs.length [] fin) : ackedPrims 1 s = [] := by
  simp [ackedPrims, step_of_list_end hu hs, request_of_list_end hs]

/-- Settles O32: the walk over the list (`run_events`, an induction over its events) acknowledges exactly their primitives,
and the completion step after it adds none. -/
theorem transportSeesExactlyTheEvents : Obligations.TransportSeesExactlyTheEvents := by
  intro s evs fin hu hs
  obtain ⟨u, hrun, hu1, hund, hack⟩ := run_events evs List.drop_zero (Nat.zero_le _) hu hs
  have hlast : ackedPrims 1 u = [] := ackedPrims_of_list_end hund (by rw [hu1])
  calc ackedPrims (stepsOf evs) s
      = ackedPrims (eventPrims evs).length s ++ ackedPrims 1 u := ackedPrims_add 1 hrun
    _ = eventPrims evs := by rw [hack, hlast, List.append_nil]

end Sys2Proof.Machine
end

section
/-! PROOFS. Scope: the command encoding, and that the block always goes on (O1 to O8, O11, O55). -/

namespace Sys2Proof.Machine

/-! ### Decoding and encoding are inverse (R71 to R77) -/

/-- Settles O2, by the round trip per command (`decode_encode`). -/
theorem decodeOfEncodeIsIdentity : Obligations.DecodeOfEncodeIsIdentity := fun _ => decode_encode

/-- The fields of format P leave no bit of a word out (R70, R71). -/
theorem eq_of_formatP_fields {w v : Word} (ho : opField w = opField v) (hr : rsvField w = rsvField v)
    (hon : onField w = onField v) (hx : xField w = xField v) (hy : yField w = yField v) : w = v := by
  obtain ⟨wo, wr, -, won, wx, wy⟩ := field_values w
  obtain ⟨vo, vr, -, von, vx, vy⟩ := field_values v
  have hop := congrArg BitVec.toNat ho
  have hres := congrArg BitVec.toNat hr
  have hbit : w.toNat / 2 ^ 24 % 2 = 1 ↔ v.toNat / 2 ^ 24 % 2 = 1 := by rwa [won, von, decide_eq_decide] at hon
  exact BitVec.eq_of_toNat_eq (by omega)

theorem xField_lt (w : Word) : xField w < 4096 := (w.extractLsb' 12 12).isLt

theorem yField_lt (w : Word) : yField w < 4096 := (w.extractLsb' 0 12).isLt

theorem fields_wf (w : Word) : (Instr.setpx (xField w) (yField w) (onField w)).wf = true := by
  simp [Instr.wf, xField_lt, yField_lt]

/-- A word of OP 1 with zero reserved bits is the SETPX word of its fields. -/
theorem encode_fields {w : Word} (ho : opField w = 0x1#4) (hr : rsvField w = 0) :
    encode (.setpx (xField w) (yField w) (onField w)) = w :=
  eq_of_formatP_fields ((encode_setpx_op ..).trans ho.symm) ((encode_setpx_rsv ..).trans hr.symm)
    (encode_setpx_on ..) (encode_setpx_x _ _ _ (xField_lt w)) (encode_setpx_y _ _ _ (yField_lt w))

/-- Only OP 1 with zero reserved bits is SETPX, and its operands are the word's fields (R71, R74). -/
theorem fields_of_decode_setpx {w : Word} {x y : Nat} {on : Bool} (h : decode w = .command (.setpx x y on)) :
    opField w = 0x1#4 ∧ rsvField w = 0 ∧ Instr.setpx (xField w) (yField w) (onField w) = .setpx x y on := by
  by_cases ho : opField w = 0x1#4
  · rw [decode, if_pos ho, decodeP] at h
    split at h
    · exact ⟨ho, ‹_›, Decoded.command.inj h⟩
    · cases h
  · simp only [decode, if_neg ho, decodeZ] at h
    split_ifs at h <;> cases h

/-- Settles O3: SETPX by its fields, the commands without operands by their one word. -/
theorem encodeOfDecodeIsIdentity : Obligations.EncodeOfDecodeIsIdentity := by
  intro w i h
  cases i with
  | setpx x y on =>
    obtain ⟨ho, hr, hi⟩ := fields_of_decode_setpx h
    exact hi ▸ ⟨fields_wf w, encode_fields ho hr⟩
  | clear => exact ⟨rfl, encode_of_decode_formatZ (by simp) h⟩
  | reset => exact ⟨rfl, encode_of_decode_formatZ (by simp) h⟩
  | init => exact ⟨rfl, encode_of_decode_formatZ (by simp) h⟩
  | refresh => exact ⟨rfl, encode_of_decode_formatZ (by simp) h⟩

/-! ### The decoder by the numbers of its fields (R76, R77) -/

theorem opField_eq_iff (w : Word) {n : Nat} (hn : n < 2 ^ 4) : opField w = BitVec.ofNat 4 n ↔ w.toNat / 2 ^ 28 = n := by
  rw [← BitVec.toNat_inj, (field_values w).1, BitVec.toNat_ofNat, Nat.mod_eq_of_lt hn]

theorem rsvField_eq_zero_iff (w : Word) : rsvField w = 0 ↔ w.toNat / 2 ^ 25 % 2 ^ 3 = 0 := by
  rw [← BitVec.toNat_inj, (field_values w).2.1]
  rfl

theorem zRsvField_eq_zero_iff (w : Word) : zRsvField w = 0 ↔ w.toNat % 2 ^ 28 = 0 := by
  rw [← BitVec.toNat_inj, (field_values w).2.2.1]
  rfl

theorem decode_of_op_one {w : Word} (h : w.toNat / 2 ^ 28 = 1) : decode w = decodeP w := by
  simp [decode, (opField_eq_iff w (by decide)).mpr h]

theorem decode_of_op_two {w : Word} (h : w.toNat / 2 ^ 28 = 2) : decode w = decodeZ w .clear := by
  simp [decode, (opField_eq_iff w (by decide)).mpr h]

theorem decode_of_op_three {w : Word} (h : w.toNat / 2 ^ 28 = 3) : decode w = decodeZ w .reset := by
  simp [decode, (opField_eq_iff w (by decide)).mpr h]

theorem decode_of_op_four {w : Word} (h : w.toNat / 2 ^ 28 = 4) : decode w = decodeZ w .init := by
  simp [decode, (opField_eq_iff w (by decide)).mpr h]

theorem decode_of_op_five {w : Word} (h : w.toNat / 2 ^ 28 = 5) : decode w = decodeZ w .refresh := by
  simp [decode, (opField_eq_iff w (by decide)).mpr h]

/-- OP 0 and 6 to 15 are no command's (R73). -/
theorem decode_of_op_unused {w : Word} (h : w.toNat / 2 ^ 28 = 0 ∨ 6 ≤ w.toNat / 2 ^ 28) :
    decode w = .illegal .opcode := by
  have ne {n : Nat} (hlo : 1 ≤ n) (hhi : n ≤ 5) : opField w ≠ BitVec.ofNat 4 n :=
    fun ho => by have := (opField_eq_iff w (by omega)).mp ho; omega
  rw [decode, if_neg (ne _ _), if_neg (ne _ _), if_neg (ne _ _), if_neg (ne _ _), if_neg (ne _ _)] <;> decide

theorem decodeZ_of_zero {w : Word} (h : w.toNat % 2 ^ 28 = 0) (i : Instr) : decodeZ w i = .command i :=
  if_pos ((zRsvField_eq_zero_iff w).mpr h)

theorem decodeZ_of_reserved {w : Word} (h : w.toNat % 2 ^ 28 ≠ 0) (i : Instr) : decodeZ w i = .illegal .reservedBits :=
  if_neg (mt (zRsvField_eq_zero_iff w).mp h)

/-- Settles O4, by the decoder's case for the word's OP. -/
theorem decodeFollowsOpField : Obligations.DecodeFollowsOpField := by
  intro w
  refine ⟨fun ho hr => ?_, fun ho hr => ⟨.reservedBits, ?_⟩, fun ho hz => ?_, fun ho hz => ?_, fun ho hz => ?_,
    fun ho hz => ?_, fun hlo hhi hz => ⟨.reservedBits, ?_⟩, fun ho => ⟨.opcode, decode_of_op_unused ho⟩⟩
  · obtain ⟨-, -, -, hon, hx, hy⟩ := field_values w
    rw [decode_of_op_one ho, decodeP, if_pos ((rsvField_eq_zero_iff w).mpr hr), hon, hx, hy]
  · rw [decode_of_op_one ho, decodeP, if_neg (mt (rsvField_eq_zero_iff w).mp hr)]
  · rw [decode_of_op_two ho, decodeZ_of_zero hz]
  · rw [decode_of_op_three ho, decodeZ_of_zero hz]
  · rw [decode_of_op_four ho, decodeZ_of_zero hz]
  · rw [decode_of_op_five ho, decodeZ_of_zero hz]
  · have hop : w.toNat / 2 ^ 28 = 2 ∨ w.toNat / 2 ^ 28 = 3 ∨ w.toNat / 2 ^ 28 = 4 ∨ w.toNat / 2 ^ 28 = 5 := by omega
    rcases hop with ho | ho | ho | ho
    · rw [decode_of_op_two ho, decodeZ_of_reserved hz]
    · rw [decode_of_op_three ho, decodeZ_of_reserved hz]
    · rw [decode_of_op_four ho, decodeZ_of_reserved hz]
    · rw [decode_of_op_five ho, decodeZ_of_reserved hz]

/-- Settles O1: each of the twelve words is decoded. -/
theorem sampleWordsDecode : Obligations.SampleWordsDecode := by
  unfold Obligations.SampleWordsDecode
  decide

/-- Settles O11: every word outside the three families is a command by the decoder's cases (O4). -/
theorem illegalWordsAreThese : Obligations.IllegalWordsAreThese := by
  intro w
  obtain ⟨setpx, reservedP, clear, reset, init, refresh, reservedZ, noCommand⟩ := decodeFollowsOpField w
  refine ⟨⟨fun ⟨why, hw⟩ => ?_, ?_⟩, fun s ⟨why, hw⟩ => ?_⟩
  · have legal : ∀ i, decode w ≠ .command i := fun i hi => by simp [hw] at hi
    by_contra hn
    have hop : w.toNat / 2 ^ 28 = 1 ∨ w.toNat / 2 ^ 28 = 2 ∨ w.toNat / 2 ^ 28 = 3 ∨ w.toNat / 2 ^ 28 = 4 ∨
        w.toNat / 2 ^ 28 = 5 := by omega
    rcases hop with ho | ho | ho | ho | ho
    · exact legal _ (setpx ho (by omega))
    · exact legal _ (clear ho (by omega))
    · exact legal _ (reset ho (by omega))
    · exact legal _ (init ho (by omega))
    · exact legal _ (refresh ho (by omega))
  · rintro (ho | ⟨ho, hr⟩ | ⟨hlo, hhi, hz⟩)
    · exact noCommand ho
    · exact reservedP ho hr
    · exact reservedZ hlo hhi hz
  · simp only [accept, hw]
    rfl

/-! ### The opcode map (R73) -/

/-- Every command's word selects the row of its mnemonic. -/
theorem encode_selects (i : Instr) : Laws.OpcodeMap.Statement i := by
  cases i with
  | setpx x y on => exact Laws.OpcodeMap.setpx x y on
  | clear => exact Laws.OpcodeMap.clear
  | reset => exact Laws.OpcodeMap.reset
  | init => exact Laws.OpcodeMap.init
  | refresh => exact Laws.OpcodeMap.refresh

/-- A word that decodes to a command selects the command's row. -/
theorem row_of_decode {w : Word} {i : Instr} (h : decode w = .command i) :
    ∃ r ∈ opcodeRows, r.mnemonic = i.mnemonic ∧ w &&& r.mask = r.value := by
  obtain ⟨r, hr, hm, hs⟩ := encode_selects i
  rw [(encodeOfDecodeIsIdentity w i h).2] at hs
  exact ⟨r, hr, hm, eq_of_beq hs⟩

theorem row_eq_of_mnemonic : ∀ r ∈ opcodeRows, ∀ r' ∈ opcodeRows, r.mnemonic = r'.mnemonic → r = r' := by
  decide

/-- The SETPX row looks at OP and the reserved bits of format P (R71). -/
theorem setpx_row {w : Word} (h : w &&& 0xFE000000#32 = 0x10000000#32) : opField w = 0x1#4 ∧ rsvField w = 0 := by
  have bit (k : Nat) : (w.getLsbD k && (0xFE000000#32).getLsbD k) = (0x10000000#32).getLsbD k := by
    rw [← BitVec.getLsbD_and, h]
  constructor
  · ext k hk
    have := bit (28 + k)
    simp only [opField, BitVec.getElem_extractLsb']
    interval_cases k <;> simpa using this
  · ext k hk
    have := bit (25 + k)
    simp only [rsvField, BitVec.getElem_extractLsb']
    interval_cases k <;> simpa using this

/-- A row with the full mask is selected by its value alone (R72). -/
theorem eq_of_full_mask {w v : Word} (h : w &&& 0xFFFFFFFF#32 = v) : w = v := by
  rwa [show (0xFFFFFFFF#32 : Word) = BitVec.allOnes 32 by decide, BitVec.and_allOnes] at h

/-- A word that selects a row decodes to the row's command. -/
theorem decode_of_row {w : Word} {r : OpcodeRow} (hr : r ∈ opcodeRows) (h : w &&& r.mask = r.value) :
    ∃ i, decode w = .command i ∧ i.mnemonic = r.mnemonic := by
  simp only [opcodeRows, List.mem_cons, List.not_mem_nil, or_false] at hr
  rcases hr with rfl | rfl | rfl | rfl | rfl
  · obtain ⟨ho, hz⟩ := setpx_row h
    exact ⟨_, encode_fields ho hz ▸ decode_encode (fields_wf w), rfl⟩
  · exact ⟨.clear, by rw [eq_of_full_mask h]; decide, rfl⟩
  · exact ⟨.reset, by rw [eq_of_full_mask h]; decide, rfl⟩
  · exact ⟨.init, by rw [eq_of_full_mask h]; decide, rfl⟩
  · exact ⟨.refresh, by rw [eq_of_full_mask h]; decide, rfl⟩

/-- Settles O5: selecting a row is decoding to its command, and a word decodes to one command only. -/
theorem opcodeMapDecidesTheCommand : Obligations.OpcodeMapDecidesTheCommand := by
  refine ⟨rfl, fun w => ⟨fun r hr => ⟨decode_of_row hr, ?_⟩, fun r hr r' hr' h h' => ?_, fun hn => ?_,
    fun ho r hr h => ?_⟩⟩
  · rintro ⟨i, hd, hi⟩
    obtain ⟨r', hr', hm, hs⟩ := row_of_decode hd
    exact row_eq_of_mnemonic r' hr' r hr (hm.trans hi) ▸ hs
  · obtain ⟨i, hd, hi⟩ := decode_of_row hr h
    obtain ⟨i', hd', hi'⟩ := decode_of_row hr' h'
    obtain rfl : i = i' := Decoded.command.inj (hd.symm.trans hd')
    exact row_eq_of_mnemonic r hr r' hr' (hi.symm.trans hi')
  · cases hd : decode w with
    | command i =>
      obtain ⟨r, hr, -, hs⟩ := row_of_decode hd
      exact absurd hs (hn r hr)
    | illegal why => exact ⟨why, rfl⟩
  · obtain ⟨i, hd, -⟩ := decode_of_row hr h
    have hop : w.toNat / 2 ^ 28 = 0 ∨ 6 ≤ w.toNat / 2 ^ 28 := by
      rw [← (field_values w).1]
      exact ho.imp (congrArg BitVec.toNat) BitVec.le_def.mp
    obtain ⟨why, hw⟩ := ((illegalWordsAreThese w).1).mpr (.inl hop)
    cases hd.symm.trans hw

/-! ### What the host writes (R75, R79, R80) -/

/-- Settles O6: the expansions are written out in `expandPseudo`. -/
theorem pseudoInstructionsExpand : Obligations.PseudoInstructionsExpand :=
  ⟨fun _ _ => rfl, fun _ _ => rfl, rfl, rfl⟩

/-- Or-ing a number below `2 ^ i` to a multiple of `2 ^ i` adds it. -/
theorem mul_two_pow_or_eq_add {a b i : Nat} (hb : b < 2 ^ i) : a * 2 ^ i ||| b = a * 2 ^ i + b := by
  rw [Nat.mul_comm, Nat.two_pow_add_eq_or_of_lt hb]

/-- The fields of a SETPX word, added up at their places (R71). -/
theorem encode_setpx_toNat {x y : Nat} (on : Bool) (hx : x < 4096) (hy : y < 4096) :
    (encode (.setpx x y on)).toNat = ((16 + on.toNat) * 2 ^ 12 + x) * 2 ^ 12 + y := by
  obtain ⟨ho, hr, -, hon, hX, hY⟩ := field_values (encode (.setpx x y on))
  rw [encode_setpx_op, BitVec.toNat_ofNat] at ho
  rw [encode_setpx_rsv, BitVec.toNat_ofNat] at hr
  rw [encode_setpx_on] at hon
  rw [encode_setpx_x _ _ _ hx] at hX
  rw [encode_setpx_y _ _ _ hy] at hY
  cases on with
  | true =>
    have hbit := of_decide_eq_true hon.symm
    rw [Bool.toNat_true]
    omega
  | false =>
    have hbit := of_decide_eq_false hon.symm
    rw [Bool.toNat_false]
    omega

/-- Settles O7: the parts of the or-combination do not overlap, so both sides are the sum of the fields at their places. -/
theorem encodingsOfTheNotation : Obligations.EncodingsOfTheNotation := by
  refine ⟨fun x y on hx hy => ?_, encode_clear, encode_reset, encode_init, encode_refresh⟩
  have hb := on.toNat_lt
  have hOn : 268435456 ||| on.toNat * 2 ^ 24 = (16 + on.toNat) * 2 ^ 24 :=
    (mul_two_pow_or_eq_add (a := 1) (i := 28) (by omega)).trans (by omega)
  have hX : (16 + on.toNat) * 2 ^ 24 ||| x * 2 ^ 12 = ((16 + on.toNat) * 2 ^ 12 + x) * 2 ^ 12 :=
    (mul_two_pow_or_eq_add (by omega)).trans (by omega)
  have hY (a : Nat) : a * 2 ^ 12 ||| y = a * 2 ^ 12 + y := mul_two_pow_or_eq_add hy
  apply BitVec.eq_of_toNat_eq
  simp only [encode_setpx_toNat on hx hy, BitVec.toNat_or, BitVec.toNat_shiftLeft, BitVec.toNat_setWidth,
    BitVec.toNat_ofBool, BitVec.toNat_ofNat, Nat.shiftLeft_eq]
  simp (disch := omega) only [Nat.mod_eq_of_lt, hOn, hX, hY]

/-- Settles O8, by the three ranges of R75. -/
theorem hostCoordinatesKeepTheirRange : Obligations.HostCoordinatesKeepTheirRange := by
  intro c
  unfold hostCoord
  split
  · refine ⟨?_, ?_, ?_, ?_, fun n _ _ => ?_⟩ <;> omega
  · split
    · refine ⟨?_, ?_, ?_, ?_, fun n _ _ => ?_⟩ <;> omega
    · refine ⟨?_, ?_, ?_, ?_, fun n _ _ => ?_⟩ <;> omega

/-! ### The block goes on -/

/-- In an accepted configuration every command answers a next state: the one fault is ruled out by R101. -/
theorem exec_goes_on (i : Instr) {s : State} (hc : s.cfg.accepts = true) : ∃ t, exec i s = .next t := by
  cases he : exec i s with
  | next t => exact ⟨t, rfl⟩
  | fault f =>
    obtain ⟨x, y, on, -, -, hr, ha, -⟩ := exec_fault he
    exact absurd (pixelOffset_lt hc hr) (Nat.not_lt.mpr ha)
  | refused r => exact absurd he (exec_never_refused i s r)

theorem accept_goes_on (w : Word) {s : State} (hc : s.cfg.accepts = true) : ∃ t, accept w s = .next t := by
  unfold accept
  split
  · exact ⟨_, rfl⟩
  · exact exec_goes_on _ hc

/-- The block's own step answers a next state, whatever stands at the port and whatever runs. -/
theorem act_goes_on {s : State} (hc : s.cfg.accepts = true) : ∃ t, act s = .next t := by
  unfold act
  split
  · exact ⟨_, rfl⟩
  · split
    · exact ⟨_, rfl⟩
    · exact accept_goes_on _ hc

/-- Settles O55: short of a shortened hold, the outside world only sets the inputs or resets the block. -/
theorem everyStepGoesOn : Obligations.EveryStepGoesOn := by
  intro s hi ha hn
  have hc : s.cfg.accepts = true := hi.config ha
  rw [step_of_accepted ha, runStep]
  split
  · exact act_goes_on hc
  · rename_i e later hs
    cases e with
    | quiet => exact act_goes_on (s := { s with script := later }) hc
    | offer ws => exact act_goes_on (s := { s with script := later, stream := ws }) hc
    | ackLevel on => exact act_goes_on (s := { s with script := later, ack := on }) hc
    | shortHold => exact absurd hs (hn later)
    | powerOn => exact ⟨_, rfl⟩

end Sys2Proof.Machine
end

section
/-! PROOFS. Scope: the framebuffer commands SETPX and CLEAR (O15 to O17, O19, O20). -/

namespace Sys2Proof.Machine

/-! ### What the two commands leave alone (R104) -/

/-- SETPX and CLEAR write FB and nothing else, in every protocol state. -/
theorem Effect.fb_only {i : Instr} {s t : State} (e : Effect i s t) (hi : i = .clear ∨ ∃ x y on, i = .setpx x y on) :
    t = { s with fb := t.fb } := by
  obtain rfl | ⟨x, y, on, rfl⟩ := hi
  · cases e with
    | cleared => rfl
  · cases e with
    | outOfRange => rfl
    | pixel => rfl

/-- No field of STATUS shows the framebuffer (R26). -/
theorem status_withFb (s : State) (m : Memory) : ({ s with fb := m } : State).status = s.status := rfl

/-- Settles O20: an accepted configuration rules out the fault, and the effect is on FB only. -/
theorem pixelCommandsIgnoreProtocolState : Obligations.PixelCommandsIgnoreProtocolState := by
  intro s p i hs hc hi
  obtain ⟨t, ht⟩ := exec_goes_on i (s := { s with pstate := p }) hc
  have e : Effect i { s with pstate := p } t := exec_idle_effect (s := { s with pstate := p }) hs ht
  refine ⟨t, ht, ?_⟩
  rw [e.fb_only hi]
  exact ⟨rfl, rfl, hs, fun c => by cases c <;> rfl, rfl, rfl⟩

/-! ### SETPX (R100 to R103) -/

theorem inRange_iff (c : Config) (x y : Nat) : inRange c x y = true ↔ x < c.width ∧ y < c.height := by
  rw [inRange, Bool.and_eq_true, decide_eq_true_eq, decide_eq_true_eq]

/-- Settles O15: the panel has 21 bands of 384 bytes, and a pixel's place in it determines the pixel. -/
theorem effectiveAddressIsInjective : Obligations.EffectiveAddressIsInjective := by
  refine ⟨fun x y => ⟨rfl, rfl, pixelBit_eq y⟩, fun x y hx hy => ?_,
    fun x y x' y' hx _ hx' _ ho hb => pixel_place_inj hx' hx ho hb⟩
  have hband : y >>> 3 ≤ 20 := by
    rw [Nat.shiftRight_eq_div_pow]
    omega
  refine ⟨hband, ?_⟩
  rw [pixelOffset, panelColumns]
  omega

/-- The new byte of SETPX with the pixel's bit written out (R100 to R102). -/
theorem setPixelByte_eq (old : Byte) (y : Nat) (on : Bool) :
    setPixelByte old y on = if on then old ||| (1#8 <<< (y % 8)) else old &&& ~~~(1#8 <<< (y % 8)) := by
  rw [setPixelByte, pixelMask, pixelBit_eq]

/-- Settles O16: in range SETPX is the write of one byte, and the byte's address lies in the framebuffer. -/
theorem setpxWritesItsByte : Obligations.SetpxWritesItsByte := by
  intro s x y on hs hc hx hy
  have hr : inRange s.cfg x y = true := (inRange_iff _ _ _).mpr ⟨hx, hy⟩
  have e : Effect (.setpx x y on) s _ := .pixel hr (pixelOffset_lt hc hr)
  exact ⟨_, exec_of_effect hs e, (fbByte_fbWrite_self ..).trans (setPixelByte_eq ..),
    fun _ ha => fbByte_fbWrite_other _ _ ha, e.fb_only (.inr ⟨x, y, on, rfl⟩), status_withFb ..⟩

/-- Settles O17: the range test fails, and SETPX then has no effect. -/
theorem setpxOutOfRangeChangesNothing : Obligations.SetpxOutOfRangeChangesNothing := by
  intro s x y on hs hout
  have hr : inRange s.cfg x y = false := by
    rw [← Bool.not_eq_true, inRange_iff]
    omega
  exact exec_of_effect hs (.outOfRange hr)

/-! ### CLEAR (R105) -/

/-- The conversion of an all-zero framebuffer is all zero (R122). -/
theorem convertBytes_zero {fb : Nat → Byte} (h : ∀ a, a < fbBytes → fb a = 0#8) :
    convertBytes fb = List.replicate wireBytes 0#8 := by
  refine List.eq_replicate_iff.mpr ⟨length_convertBytes fb, fun b hb => ?_⟩
  obtain ⟨i, hi, hb⟩ := List.mem_flatMap.mp hb
  rw [packColumns_bands] at hb
  obtain ⟨band, hband, hb⟩ := List.mem_flatMap.mp hb
  obtain ⟨p, hp, rfl⟩ := List.mem_range'.mp hi
  have inside {k : Nat} (hk : k < 384) : fb (band * panelColumns + k) = 0#8 := by
    have hlt := List.mem_range.mp hband
    refine h _ ?_
    rw [fbBytes, panelColumns, panelBands]
    omega
  have hpair : pair 0#8 0#8 = [0#8, 0#8] := by decide
  rw [packBand, Nat.add_assoc, inside (by omega), inside (by omega), hpair] at hb
  simpa using hb

/-- Settles O19: the word by the decoder's case for OP 2, the effect by the bytes of `fbZero`. -/
theorem clearZeroesTheFramebuffer : Obligations.ClearZeroesTheFramebuffer := by
  refine ⟨encode_clear, encode_clear ▸ decode_encode rfl, fun w ho hw => ⟨.reservedBits, ?_⟩, fun s hs => ?_⟩
  · have hz : w.toNat % 2 ^ 28 ≠ 0 := fun hz => hw (BitVec.eq_of_toNat_eq (by rw [BitVec.toNat_ofNat]; omega))
    rw [decode_of_op_two ho, decodeZ_of_reserved hz]
  · have e : Effect .clear s s.fbZero := .cleared
    exact ⟨_, exec_of_effect hs e, fun a ha => fbByte_fbZero s ha, convertBytes_zero fun a ha => fbByte_fbZero s ha,
      e.fb_only (.inl rfl), status_withFb ..⟩

end Sys2Proof.Machine
end

section
/-! PROOFS. Scope: the pixel packer, NIBBLE, PAIR and CONVERT (O21 to O25). -/

namespace Sys2Proof.Machine

/-! ### NIBBLE and PAIR (R120, R121) -/

/-- Bit `j` of each operand and its place in the output byte (R120). -/
theorem nibble_getLsbD (n1 n2 : Nibble) {j : Nat} (hj : j < 4) :
    (nibble n1 n2).getLsbD (7 - 2 * j) = n1.getLsbD j ∧ (nibble n1 n2).getLsbD (6 - 2 * j) = n2.getLsbD j := by
  simp only [nibble, BitVec.getLsbD_append]
  interval_cases j <;> simp

/-- Settles O21: the places of the bits for any operands, the corner cases by evaluation. -/
theorem nibbleInterleaves : Obligations.NibbleInterleaves :=
  ⟨fun n1 n2 _ => nibble_getLsbD n1 n2, by decide⟩

/-- Nibble `h` of a byte, cut out by shift and mask, holds the bits from `4 h` on (R121, R124). -/
theorem shiftedNibble_getLsbD (b : Byte) (h : Nat) {j : Nat} (hj : j < 4) :
    (((b >>> (4 * h)) &&& 0xF#8).setWidth 4 : Nibble).getLsbD j = b.getLsbD (4 * h + j) := by
  have hmask : (0xF#4)[j] = true := BitVec.getElem_allOnes j hj
  simp [hj, hmask]

theorem lowNibble_getLsbD (b : Byte) {j : Nat} (hj : j < 4) : (lowNibble b).getLsbD j = b.getLsbD j := by
  simpa [lowNibble] using shiftedNibble_getLsbD b 0 hj

theorem highNibble_getLsbD (b : Byte) {j : Nat} (hj : j < 4) : (highNibble b).getLsbD j = b.getLsbD (4 + j) :=
  shiftedNibble_getLsbD b 1 hj

/-- Byte `h` of PAIR is the interleave of the nibbles `h` (R121, R124). -/
theorem pair_getElem? (b1 b2 : Byte) {h : Nat} (hh : h < 2) :
    (pair b1 b2)[h]? =
      some (nibble (((b1 >>> (4 * h)) &&& 0xF#8).setWidth 4) (((b2 >>> (4 * h)) &&& 0xF#8).setWidth 4)) := by
  interval_cases h
  · simp [pair, lowNibble]
  · rfl

/-- Settles O22: the mask keeps the four bits that the width keeps. -/
theorem pairPutsLowNibblesFirst : Obligations.PairPutsLowNibblesFirst := by
  refine ⟨fun _ _ => rfl, fun b => BitVec.eq_of_getLsbD_eq fun j hj => ?_, by decide, by decide⟩
  rw [← highNibble, highNibble_getLsbD b hj]
  simp [hj]

/-! ### The closed form of CONVERT (R124, R126) -/

/-- CONVERT as two plain loops: the column pairs, and inside each the 21 bands in order. -/
theorem convertBytes_bands (fb : Nat → Byte) :
    convertBytes fb = (List.range 192).flatMap fun p => (List.range 21).flatMap fun band => packBand fb (2 * p) band := by
  rw [convertBytes, ← Nat.mul_zero 2, flatMap_range'_two, ← List.range_eq_range']
  simp only [packColumns_bands]

/-- Byte `h` of a band interleaves the nibbles `h` of the two columns. -/
theorem convert_getElem? (s : State) {p band h : Nat} (hp : p < 192) (hb : band < 21) (hh : h < 2) :
    (convert s)[p * 42 + band * 2 + h]? =
      some (nibble (((s.fbByte (band * 384 + 2 * p) >>> (4 * h)) &&& 0xF#8).setWidth 4)
        (((s.fbByte (band * 384 + 2 * p + 1) >>> (4 * h)) &&& 0xF#8).setWidth 4)) := by
  rw [Nat.add_assoc, convert, convertBytes_getElem? _ hp hb hh, packBand, pair_getElem? _ _ hh, panelColumns]

/-- Settles O23: the byte's place among the pieces of CONVERT, and its loops without the grouping. -/
theorem convertClosedForm : Obligations.ConvertClosedForm :=
  ⟨length_convert, fun s _ _ _ => convert_getElem? s, fun s => convertBytes_bands s.fbByte⟩

/-- The columns of the 21 bands lie inside the framebuffer (R50). -/
theorem bandByte_lt {band k : Nat} (hb : band < 21) (hk : k < 384) : band * panelColumns + k < fbBytes := by
  rw [fbBytes, panelColumns, panelBands]
  omega

/-- The two loops read the framebuffer inside its 8064 bytes only. -/
theorem convertBytes_congr {f g : Nat → Byte} (h : ∀ a, a < fbBytes → f a = g a) : convertBytes f = convertBytes g := by
  rw [convertBytes_bands, convertBytes_bands]
  refine List.flatMap_congr fun p hp => List.flatMap_congr fun band hb => ?_
  rw [List.mem_range] at hp hb
  rw [packBand, packBand, Nat.add_assoc, h _ (bandByte_lt hb (by omega)), h _ (bandByte_lt hb (by omega))]

/-- Settles O25: the WireBuffer is CONVERT of the bytes read. -/
theorem convertDependsOnlyOnTheFramebuffer : Obligations.ConvertDependsOnlyOnTheFramebuffer :=
  fun _ _ => convertBytes_congr

/-! ### The pixel-to-wire map (R125) -/

/-- A column pair has 42 bytes, one for each four rows. -/
theorem wireIndex_eq (x y : Nat) : wireIndex x y = x / 2 * 42 + y / 4 := by
  rw [wireIndex, show y &&& 7 = y % 8 from pixelBit_eq y]
  simp only [Nat.shiftRight_eq_div_pow]
  omega

theorem wireBit_eq (x y : Nat) : wireBit x y = 7 - 2 * (y % 4) - x % 2 := by
  rw [wireBit, show y &&& 7 = y % 8 from pixelBit_eq y,
    show y % 8 &&& 3 = y % 8 % 4 from Nat.and_two_pow_sub_one_eq_mod (y % 8) 2, Nat.and_one_is_mod]
  omega

/-- Pixels of the panel that share their wire byte and bit are one. -/
theorem wire_place_inj {x y x' y' : Nat} (hy : y < 168) (hy' : y' < 168) (hi : wireIndex x y = wireIndex x' y')
    (hb : wireBit x y = wireBit x' y') : x = x' ∧ y = y' := by
  simp only [wireIndex_eq, wireBit_eq] at hi hb
  omega

/-- The pixel at bit `b` of wire byte `n`. -/
theorem wire_place_surj {n b : Nat} (hn : n < 8064) (hb : b < 8) :
    ∃ x y, x < 384 ∧ y < 168 ∧ wireIndex x y = n ∧ wireBit x y = b := by
  refine ⟨n / 42 * 2 + (7 - b) % 2, n % 42 * 4 + (7 - b) / 2, ?_⟩
  rw [wireIndex_eq, wireBit_eq]
  omega

/-- The wire byte at a pixel's index has the pixel's value at the pixel's bit. -/
theorem convert_pixel (s : State) {x y : Nat} (hx : x < 384) (hy : y < 168) :
    ∃ b, (convert s)[wireIndex x y]? = some b ∧ b.getLsbD (wireBit x y) = s.pixel x y := by
  have hj : y % 4 < 4 := by omega
  have hplace : wireIndex x y = x / 2 * 42 + y / 8 * 2 + y % 8 / 4 := by rw [wireIndex_eq]; omega
  have hbit : 4 * (y % 8 / 4) + y % 4 = y % 8 := by omega
  refine ⟨_, hplace ▸ convert_getElem? s (by omega) (by omega) (by omega), ?_⟩
  rw [wireBit_eq, State.pixel, panelColumns]
  obtain heven | hodd := Nat.mod_two_eq_zero_or_one x
  · have hcol : y / 8 * 384 + 2 * (x / 2) = y / 8 * 384 + x := by omega
    rw [heven, Nat.sub_zero, (nibble_getLsbD _ _ hj).1, shiftedNibble_getLsbD _ _ hj, hbit, hcol]
  · have hcol : y / 8 * 384 + 2 * (x / 2) + 1 = y / 8 * 384 + x := by omega
    have hlow : 7 - 2 * (y % 4) - 1 = 6 - 2 * (y % 4) := by omega
    rw [hodd, hlow, (nibble_getLsbD _ _ hj).2, shiftedNibble_getLsbD _ _ hj, hbit, hcol]

/-! ### The number of set bits (R125) -/

/-- NIBBLE's output byte, MSB first (R120). -/
theorem serialBits_nibble (n1 n2 : Nibble) :
    serialBits (nibble n1 n2) = [n1.getLsbD 0, n2.getLsbD 0, n1.getLsbD 1, n2.getLsbD 1, n1.getLsbD 2, n2.getLsbD 2,
      n1.getLsbD 3, n2.getLsbD 3] := by
  simp only [serialBits, nibble, BitVec.getLsbD_append]
  simp

/-- PAIR moves the bits of its two bytes about: its output has as many set bits. -/
theorem onesCount_pair (b1 b2 : Byte) : onesCount (pair b1 b2) = byteOnes b1 + byteOnes b2 := by
  simp only [onesCount, pair, byteOnes, List.map_cons, List.map_nil, List.sum_cons, List.sum_nil, serialBits_nibble]
  simp only [serialBits, List.count_cons, List.count_nil]
  simp (disch := decide) only [lowNibble_getLsbD, highNibble_getLsbD, Nat.reduceAdd]
  omega

theorem onesCount_flatMap (f : Nat → List Byte) (n : Nat) :
    onesCount ((List.range n).flatMap f) = ∑ i ∈ Finset.range n, onesCount (f i) := by
  induction n with
  | zero => rfl
  | succ n ih =>
    rw [Finset.sum_range_succ, ← ih]
    simp [onesCount, List.range_succ]

/-- A sum over `n` rows of `k` entries, row by row. -/
theorem sum_range_rows (f : Nat → Nat) (n k : Nat) :
    ∑ a ∈ Finset.range (n * k), f a = ∑ i ∈ Finset.range n, ∑ j ∈ Finset.range k, f (i * k + j) := by
  induction n with
  | zero => simp
  | succ n ih => rw [Nat.succ_mul, Finset.sum_range_add, Finset.sum_range_succ, ih]

/-- A sum over `2 * n` entries, pair by pair. -/
theorem sum_range_pairs (f : Nat → Nat) (n : Nat) :
    ∑ x ∈ Finset.range (2 * n), f x = ∑ p ∈ Finset.range n, (f (2 * p) + f (2 * p + 1)) := by
  induction n with
  | zero => rfl
  | succ n ih => rw [Nat.mul_succ, Finset.sum_range_succ, Finset.sum_range_succ, Finset.sum_range_succ, ih, Nat.add_assoc]

/-- The column pairs and bands of CONVERT go through every framebuffer byte once. -/
theorem onesCount_convertBytes (fb : Nat → Byte) :
    onesCount (convertBytes fb) = ∑ a ∈ Finset.range fbBytes, byteOnes (fb a) :=
  calc onesCount (convertBytes fb)
    _ = ∑ p ∈ Finset.range 192, ∑ band ∈ Finset.range 21,
          (byteOnes (fb (band * 384 + 2 * p)) + byteOnes (fb (band * 384 + (2 * p + 1)))) := by
        simp only [convertBytes_bands, onesCount_flatMap, packBand, onesCount_pair, panelColumns, Nat.add_assoc]
    _ = ∑ band ∈ Finset.range 21, ∑ x ∈ Finset.range (2 * 192), byteOnes (fb (band * 384 + x)) := by
        rw [Finset.sum_comm]
        simp only [sum_range_pairs]
    _ = ∑ a ∈ Finset.range fbBytes, byteOnes (fb a) := by
        rw [fbBytes, panelColumns, panelBands, Nat.mul_comm 384, sum_range_rows]

/-- Settles O24: where a pixel lands, the map of the places, and the two consequences. -/
theorem convertIsABitPermutation : Obligations.ConvertIsABitPermutation := by
  refine ⟨fun s _ _ => convert_pixel s, fun _ _ => ⟨rfl, rfl⟩, fun x y hx hy => ?_,
    fun x y x' y' _ hy _ hy' => wire_place_inj hy hy', fun n b => wire_place_surj,
    fun s => onesCount_convertBytes s.fbByte, fun s => convertBytes_zero⟩
  rw [wireIndex_eq, wireBit_eq]
  omega

end Sys2Proof.Machine
end

section
/-! PROOFS. Scope: every step keeps the shape of the bus trace (O54). -/

namespace Sys2Proof.Machine

/-! ### What the shape looks at -/

/-- The shape looks at the parameters, PSTATE, PULSED, and what is emitted and pending, so it stays while these stay. -/
theorem TraceShape.kept {s t : State} (h : TraceShape s) (hc : t.cfg = s.cfg) (hp : t.pstate = s.pstate)
    (hq : t.pulsed = s.pulsed) (htr : t.trace ++ t.pending = s.trace ++ s.pending)
    (he : s.emitted <:+ s.trace → t.emitted <:+ t.trace) : TraceShape t := by
  obtain ⟨pulses, bursts, hlen, hshape, hpulsed, hready, hemitted⟩ := h
  exact ⟨pulses, bursts, hlen, by rw [htr, hshape, hc, hp], hq ▸ hpulsed, hp ▸ hready, he hemitted⟩

/-- A step that leaves the position and the trace alone too keeps the shape. -/
theorem TraceShape.congr {s t : State} (h : TraceShape s) (hc : t.cfg = s.cfg) (hp : t.pstate = s.pstate)
    (hq : t.pulsed = s.pulsed) (hs : t.seq = s.seq) (htr : t.trace = s.trace) : TraceShape t :=
  h.kept hc hp hq (by simp only [State.pending, hs, htr]) (by simp only [State.emitted, hs, htr, imp_self])

/-- A refusal writes the error registers alone (R205). -/
theorem TraceShape.refuse {s : State} (h : TraceShape s) (c : Cause) (w : Word) : TraceShape (refuse c w s) :=
  h.congr (refuse_cfg ..) (refuse_pstate ..) (refuse_pulsed ..) (refuse_seq ..) (refuse_trace ..)

theorem TraceShape.inputs {s s0 : State} (hb : SameBlock s s0) (h : TraceShape s) : TraceShape s0 := by
  obtain ⟨_, _, _, rfl⟩ := hb
  exact h.congr rfl rfl rfl rfl rfl

/-! ### An accepted command -/

/-- In IDLE nothing is pending, so the trace itself has the shape. -/
theorem TraceShape.trace_of_idle {s : State} (h : TraceShape s) (hs : s.seq = .idle) :
    ∃ (pulses : Nat) (bursts : List (List Byte)),
      (∀ wb ∈ bursts, wb.length = wireBytes) ∧
      s.trace = (List.replicate pulses (resetEvents s.cfg)).flatten
        ++ (if s.pstate = .reset then [] else initEvents s.cfg) ++ (bursts.map (refreshEvents s.cfg)).flatten ∧
      (s.pulsed = true → 0 < pulses) ∧ (s.pstate ≠ .ready → bursts = []) := by
  obtain ⟨pulses, bursts, hlen, hshape, hpulsed, hready, -⟩ := h
  simp only [State.pending, hs, List.append_nil] at hshape
  exact ⟨pulses, bursts, hlen, hshape, hpulsed, hready⟩

/-- A command accepted in IDLE keeps the shape: RESET adds a pulse, INIT the initialization sequence, REFRESH a burst of 8064
bytes, and the others add nothing. -/
theorem TraceShape.effect {i : Instr} {s t : State} (h : TraceShape s) (hs : s.seq = .idle)
    (hc : s.cfg.accepts = true) (e : Effect i s t) : TraceShape t := by
  obtain ⟨pulses, bursts, hlen, hshape, hpulsed, hready⟩ := h.trace_of_idle hs
  cases e with
  | resetStarts hp =>
    have hb : bursts = [] := hready (by simp [hp])
    rw [startRun_of_ne_nil (resetEvents_ne_nil _)]
    refine ⟨pulses + 1, [], by simp, ?_, fun _ => pulses.succ_pos, fun _ => rfl, List.nil_suffix⟩
    simp [State.pending, hshape, hp, hb, List.replicate_succ']
  | initStarts hp hq =>
    have hb : bursts = [] := hready (by simp [hp])
    rw [startRun_of_ne_nil (initEvents_ne_nil hc)]
    refine ⟨pulses, [], by simp, ?_, hpulsed, fun _ => rfl, List.nil_suffix⟩
    simp [State.pending, hshape, hp, hb]
  | refreshStarts hp =>
    rw [startRun_of_ne_nil (refreshEvents_ne_nil _ _)]
    refine ⟨pulses, bursts ++ [convert s], ?_, ?_, hpulsed, fun hne => absurd hp hne, List.nil_suffix⟩
    · simpa [or_imp, forall_and] using hlen
    · simp [State.pending, hshape, hp]
  | outOfRange => exact h
  | pixel => exact h.congr rfl rfl rfl rfl rfl
  | cleared => exact h.congr rfl rfl rfl rfl rfl
  | resetRefused => exact h.refuse _ _
  | initRefused => exact h.refuse _ _
  | refreshRefused => exact h.refuse _ _

/-! ### A step of the sequencer -/

/-- When RESET's list has been emitted the trace holds at least one pulse: without one it would be empty. -/
theorem pulses_pos_of_reset_emitted {c : Config} {l : List BusEvent} {pulses : Nat}
    (hl : l = (List.replicate pulses (resetEvents c)).flatten) (he : resetEvents c <:+ l) : 0 < pulses := by
  refine Nat.pos_of_ne_zero fun h0 => resetEvents_ne_nil c (List.suffix_nil.mp ?_)
  simpa [hl, h0] using he

/-- The end of a list keeps the shape: after RESET's a pulse stands in the trace, and after INIT's the sequence does. -/
theorem TraceShape.finish {s : State} {evs : List BusEvent} {todo : List Prim} {fin : Finish} (h : TraceShape s)
    (hs : s.seq = .run evs evs.length todo fin) (hr : RunOk s evs fin) :
    TraceShape { fin.apply s with seq := .idle } := by
  obtain ⟨pulses, bursts, hlen, hshape, hpulsed, hready, hemitted⟩ := h
  simp only [State.pending, hs, List.drop_length, List.append_nil] at hshape
  simp only [State.emitted, hs, List.take_length] at hemitted
  cases fin with
  | nothing => exact ⟨pulses, bursts, hlen, (List.append_nil _).trans hshape, hpulsed, hready, List.nil_suffix⟩
  | setPulsed =>
    obtain ⟨hp, rfl⟩ := hr
    have hb : bursts = [] := hready (by simp [hp])
    have hpos : 0 < pulses := pulses_pos_of_reset_emitted (by simpa [hp, hb] using hshape) hemitted
    exact ⟨pulses, bursts, hlen, (List.append_nil _).trans hshape, fun _ => hpos, hready, List.nil_suffix⟩
  | setReady =>
    obtain ⟨hp, rfl⟩ := hr
    refine ⟨pulses, bursts, hlen, ?_, hpulsed, fun hne => absurd rfl hne, List.nil_suffix⟩
    simpa [State.pending, Finish.apply, hp] using hshape

/-- A sequencer step keeps the shape: it moves events from what is pending to the trace, or it ends the list. -/
theorem TraceShape.seqStep {s : State} {evs : List BusEvent} {k : Nat} {todo : List Prim} {fin : Finish} (hi : BlockInv s)
    (h : TraceShape s) (hs : s.seq = .run evs k todo fin) : TraceShape (seqStep evs k todo fin s) := by
  rcases seqStep_protocol_of_inv hi ⟨_, _, _, rfl⟩ hs with ⟨hp, hq⟩ | ⟨rfl, -, hr, ht⟩
  · exact h.kept (seqStep_cfg ..) hp hq (seqStep_trace_pending hs) (seqStep_emitted hs)
  · rw [ht]
    exact h.finish hs hr

/-- Settles O54: each case of a step keeps the shape; after a power-on reset the trace is empty. -/
theorem everyStepKeepsTheTraceShape : Obligations.EveryStepKeepsTheTraceShape := by
  intro s t hi h hstep
  cases stepCase hstep with
  | powerOn later _ ht => exact ht ▸ traceShape_afterPowerOn ..
  | walked s0 evs k todo fin _ hb _ hs ht => exact ht ▸ (h.inputs hb).seqStep (hi.inputs hb) (hb.seq.trans hs)
  | waited hb => exact h.inputs hb
  | refusedWord s0 w _ hb _ _ _ ht => exact ht ▸ (h.inputs hb).refuse .illegalCommand w
  | accepted s0 w i hb hs _ _ he =>
    have hc : s0.cfg.accepts = true := hb.cfg ▸ hi.config (cfgAccepted_of_step hstep)
    exact (h.inputs hb).effect (hb.seq.trans hs) hc he

end Sys2Proof.Machine
end

section
/-! PROOFS. Scope: the events and primitives of the bus, and a stalled transport (O26 to O29). -/

namespace Sys2Proof.Machine

/-- Settles O26. -/
theorem transactionHelpers : Obligations.TransactionHelpers :=
  ⟨fun _ => hold_pos, hold_zero, tx_nil, tx_cons⟩

/-- Settles O27: between the two selections stand the mode and transfers only. -/
theorem frameIsOneChipSelect : Obligations.FrameIsOneChipSelect :=
  fun dc bytes => ⟨frame_prims dc bytes, fun on => by simp⟩

/-- An undisturbed block with one primitive of an event left requests it, and the event completes in the next step. -/
theorem step_of_last_prim {s : State} {evs : List BusEvent} {k : Nat} {p : Prim} {fin : Finish} {e : BusEvent}
    (hu : Undisturbed s) (he : evs[k]? = some e) (hs : s.seq = .run evs k [p] fin) :
    s.request = some p ∧ step s = .next (completeEvent evs k fin e (p.drive s)) := by
  refine ⟨by simp [State.request, hs, he], ?_⟩
  rw [step_of_run hu hs]
  obtain ⟨-, hack, -⟩ := hu
  simp [seqStep, he, hack, acknowledge]

/-- Settles O28: an Rst event and a Wait event are one primitive, so the next step completes them. -/
theorem resetLineAndHoldEvents : Obligations.ResetLineAndHoldEvents := by
  refine ⟨fun _ => rfl, fun _ => rfl, fun s evs k fin e hu he hs => ⟨?_, ?_⟩⟩
  · rintro level rfl
    obtain ⟨hreq, hstep⟩ := step_of_last_prim hu he hs
    exact ⟨hreq, _, hstep, rfl, rfl, rfl, rfl⟩
  · rintro ms rfl
    obtain ⟨hreq, hstep⟩ := step_of_last_prim hu he hs
    exact ⟨hreq, _, hstep, rfl, rfl, rfl, rfl⟩

/-- Without an acknowledgement a block with an event to emit stays in the same state (R143). -/
theorem step_of_stalled {s : State} {evs : List BusEvent} {k : Nat} {todo : List Prim} {fin : Finish}
    (hc : s.cfgAccepted = true) (hsc : s.script = []) (ha : s.ack = false) (hs : s.seq = .run evs k todo fin)
    (hk : k < evs.length) : step s = .next s := by
  rw [step_of_accepted hc]
  simp [runStep, hsc, act, hs, seqStep, hk, ha]

/-- Settles O29, by induction on the number of steps. -/
theorem stalledTransportFreezesTheBlock : Obligations.StalledTransportFreezesTheBlock := by
  intro n s evs k todo fin hc hsc ha hs hk
  have hbusy : s.busy = true := (busy_iff s).mpr (by simp [hs])
  refine ⟨?_, hbusy, by rw [State.cmdReady, hbusy]; rfl⟩
  induction n with
  | zero => exact run_zero s
  | succ n ih => rw [run_succ (step_of_stalled hc hsc ha hs hk), ih]

end Sys2Proof.Machine
end

section
/-! PROOFS. Scope: the protocol commands RESET, INIT and REFRESH, and their whole runs (O33, O36 to O41, O53). -/

namespace Sys2Proof.Machine

/-! ### The acceptance step (R145, R150, R170) -/

/-- Settles O33. -/
theorem resetStartsThePulse : Obligations.ResetStartsThePulse := by
  intro s hs hp
  rw [exec_of_effect hs (.resetStarts hp), startRun_of_ne_nil (resetEvents_ne_nil _)]
  rfl

/-- Settles O36: INIT_TABLE of an accepted configuration has events to start. -/
theorem initStartsTheSequence : Obligations.InitStartsTheSequence := by
  intro s hs hc hp hq
  rw [exec_of_effect hs (.initStarts hp hq), startRun_of_ne_nil (initEvents_ne_nil hc)]
  rfl

/-- Settles O37: in an accepted configuration both window parameters have a data frame. -/
theorem refreshStartsTheFrame : Obligations.RefreshStartsTheFrame := by
  intro s hs hc hp
  rw [exec_of_effect hs (.refreshStarts hp), refreshEvents_frames hc]
  rfl

/-- Settles O38: a busy block holds the command, and an idle one refuses it or starts its events. -/
theorem protocolCommandsLeaveTheRest : Obligations.ProtocolCommandsLeaveTheRest := by
  intro i s t hi hc h
  by_cases hs : s.seq = .idle
  · have e : Effect i s t := exec_idle_effect hs h
    have hfb : t.fb = s.fb := by
      rcases e.fb with hf | rfl | ⟨x, y, on, rfl⟩
      · exact hf
      · simp at hi
      · simp at hi
    obtain ⟨hpulsed, hpstate⟩ := e.protocol hc
    refine ⟨fun a => by rw [fbByte_congr hfb e.powerOns], hfb, e.cfg, by rw [e.keeps], by rw [e.keeps], by rw [e.keeps],
      by rw [e.keeps], hpulsed, e.stream, fun hseq => ?_, fun hne => ?_⟩
    · rcases e.errors with ⟨hword, hcause, herr⟩ | ⟨c, -, -, ht⟩
      · exact ⟨herr, hcause, hword⟩
      · exact absurd (by rw [ht, refuse_seq]) hseq
    · rcases hpstate with hp | ⟨hinit, -, hp, -⟩
      · exact absurd hp hne
      · exact ⟨hinit, hp⟩
  · rw [exec_of_busy i hs] at h
    cases h
    simp

/-! ### A whole run, from the acceptance to IDLE -/

/-- An undisturbed block that starts an event list comes to IDLE with the list added to the trace (R22). -/
theorem run_startRun {evs : List BusEvent} (hne : evs ≠ []) (fin : Finish) {s : State} (hu : Undisturbed s) :
    Host.Core.run Sys2Proof.core (stepsOf evs) (startRun evs fin s) =
      .next { fin.apply (driveAll (eventPrims evs) s) with seq := .idle, trace := s.trace ++ evs } := by
  rw [startRun_of_ne_nil hne]
  obtain ⟨u, hrun, rfl⟩ := eventListRunsToCompletion { s with seq := .run evs 0 (primsAt evs 0) fin } evs fin hu rfl
  rw [hrun]
  have hd : driveAll (eventPrims evs) { s with seq := .run evs 0 (primsAt evs 0) fin } =
      { driveAll (eventPrims evs) s with seq := .run evs 0 (primsAt evs 0) fin, trace := s.trace } :=
    driveAll_with (eventPrims evs) s _ s.trace
  rw [hd, finish_with]

theorem eventPrims_append (l m : List BusEvent) : eventPrims (l ++ m) = eventPrims l ++ eventPrims m :=
  List.flatMap_append

/-- A reset pulse leaves the line high, and moves nothing else (R145). -/
theorem driveAll_resetEvents (c : Config) (s : State) :
    driveAll (eventPrims (resetEvents c)) s = { s with rstLevel := true } := by
  have rst : ∀ (level : Bool) (u : State), driveAll (eventPrims [.rst level]) u = { u with rstLevel := level } :=
    fun _ _ => rfl
  simp only [resetEvents, eventPrims_append, driveAll_append, driveAll_hold, rst]

/-- Settles O39. -/
theorem resetPulsesTheLine : Obligations.ResetPulsesTheLine := by
  intro s hu hs hp
  have hrun := run_startRun (resetEvents_ne_nil s.cfg) .setPulsed hu
  rw [driveAll_resetEvents] at hrun
  refine ⟨_, _, exec_of_effect hs (.resetStarts hp), hrun, ?_, fun a => congrFun (fbByte_congr rfl rfl) a⟩
  rw [← hs]
  rfl

/-- The events of a record leave chip select deasserted and the reset line where it was (R150). -/
theorem driveAll_record (r : InitRecord) (s : State) :
    ∃ dc, driveAll (eventPrims (InitRecord.events r)) s = { s with csAsserted := false, dc := dc } := by
  obtain ⟨dc, h⟩ := driveAll_tx r.op r.data s
  exact ⟨dc, by rw [InitRecord.events, eventPrims_append, driveAll_append, driveAll_hold, h]⟩

/-- So do the events of a table that has a record. -/
theorem driveAll_records (r : InitRecord) (rest : List InitRecord) (s : State) :
    ∃ dc, driveAll (eventPrims ((r :: rest).flatMap InitRecord.events)) s = { s with csAsserted := false, dc := dc } := by
  induction rest generalizing r s with
  | nil => simpa using driveAll_record r s
  | cons q rest ih =>
    obtain ⟨dc, h⟩ := driveAll_record r s
    rw [List.flatMap_cons, eventPrims_append, driveAll_append, h]
    exact ih q _

/-- The initialization sequence of an accepted configuration leaves the bus deselected (R152). -/
theorem driveAll_initEvents {c : Config} (hc : c.accepts = true) (s : State) :
    driveAll (eventPrims (initEvents c)) s =
      { s with csAsserted := false, dc := (driveAll (eventPrims (initEvents c)) s).dc } := by
  have htable : c.initTable ≠ [] := initTable_ne_nil ((accepts_iff c).mp hc).2.1
  obtain ⟨r, rest, hr⟩ := List.exists_cons_of_ne_nil htable
  obtain ⟨dc, h⟩ := driveAll_records r rest s
  rw [initEvents, hr, h]

/-- Settles O40. -/
theorem initSendsTheTableExactly : Obligations.InitSendsTheTableExactly := by
  intro s hu hc hs hp hq
  have hne := initEvents_ne_nil hc
  have hrun := run_startRun (s := { s with pstate := .initialized }) hne .setReady hu
  rw [driveAll_pstate, driveAll_initEvents hc] at hrun
  refine ⟨_, _, exec_of_effect hs (.initStarts hp hq), hrun, by rw [startRun_of_ne_nil hne], ?_,
    fun a => congrFun (fbByte_congr rfl rfl) a⟩
  rw [← hs]
  rfl

/-- The window setup and the burst leave the bus deselected with the command/data line at DATA (R170). -/
theorem driveAll_refreshEvents {c : Config} (hc : c.accepts = true) (wb : List Byte) (s : State) :
    driveAll (eventPrims (refreshEvents c wb)) s = { s with csAsserted := false, dc := .data } := by
  simp only [refreshEvents_frames hc, eventPrims_cons, eventPrims_nil, driveAll_append, driveAll_frame, driveAll_nil]

/-- Settles O41. -/
theorem refreshTransmitsTheFramebuffer : Obligations.RefreshTransmitsTheFramebuffer := by
  intro s hu hc hs hp
  have hlen : (convert s).length = 8064 := length_convert s
  have hfr := refreshEvents_frames hc (convert s)
  have hbytes : ((refreshEvents s.cfg (convert s)).map BusEvent.byteCount).sum =
      3 + s.cfg.winColData.length + s.cfg.winRowData.length + 8064 := by
    simp only [hfr, List.map_cons, List.map_nil, BusEvent.byteCount, List.sum_cons, List.sum_nil, List.length_singleton, hlen]
    omega
  have hrun := run_startRun (refreshEvents_ne_nil s.cfg (convert s)) .nothing hu
  rw [driveAll_refreshEvents hc] at hrun
  refine ⟨_, _, _, exec_of_effect hs (.refreshStarts hp), hrun, ?_, hfr, hlen, by simp [hfr], hbytes, fun hd => ?_, rfl, hp,
    fun a => congrFun (fbByte_congr rfl rfl) a, ?_, rfl, congrArg (refreshEvents s.cfg) (convert_congr rfl rfl)⟩
  · rw [← hs]
    rfl
  · rw [hbytes, hd]
    rfl
  · simp only [State.status, State.busy, hs]
    rfl

/-! ### The rows of the protocol table (R175, R176) -/

/-- INITIALIZED is the protocol state of one of the three lists only. -/
theorem initializing_of_runOk {s : State} {evs : List BusEvent} {fin : Finish} (h : RunOk s evs fin)
    (hp : s.pstate = .initialized) : fin = .setReady ∧ evs = initEvents s.cfg := by
  cases fin with
  | setReady => exact ⟨rfl, h.2⟩
  | setPulsed => exact absurd (hp.symm.trans h.1) (by decide)
  | nothing => exact absurd (hp.symm.trans h.1) (by decide)

theorem BlockInv.initializing {s : State} (hi : BlockInv s) (hp : s.pstate = .initialized) :
    ∃ k todo, s.seq = .run (initEvents s.cfg) k todo .setReady := by
  cases hs : s.seq with
  | idle => exact absurd hp ((seqOk_of_idle hs).mp hi.position)
  | run evs k todo fin =>
    obtain ⟨-, hr⟩ := (seqOk_of_run hs).mp hi.position
    obtain ⟨rfl, rfl⟩ := initializing_of_runOk hr hp
    exact ⟨k, todo, rfl⟩

/-- Settles O53: by the invariant, INITIALIZED fits INIT's list alone, and a state past RESET has PULSED set. -/
theorem acceptanceRowsOfTheProtocolTable : Obligations.AcceptanceRowsOfTheProtocolTable := by
  intro s hi
  have hbusy : s.pstate = .initialized → s.busy = true := fun hp => by
    obtain ⟨k, todo, hs⟩ := hi.initializing hp
    exact (busy_iff s).mpr (by simp [hs])
  refine ⟨fun hp => ⟨hbusy hp, hi.initializing hp⟩, fun ⟨hp, hq⟩ => ?_, fun hb => ?_⟩
  · simp [hi.pulsed (by simp [hp])] at hq
  · cases hp : s.pstate with
    | reset => cases s.pulsed <;> simp
    | initialized => simp [hbusy hp] at hb
    | ready => simp [hi.pulsed (by simp [hp])]

end Sys2Proof.Machine
end

section
/-! PROOFS. Scope: what the build-time checks of INIT_TABLE and of the window mean (O56, O57). -/

namespace Sys2Proof.Machine

/-! ### The window (R161) -/

theorem rangeOk_iff (n : Nat) (d : List Byte) :
    rangeOk n d = true ↔ ∃ first last : Byte, d = [first, last] ∧ (last.toNat : Int) - first.toNat + 1 = n := by
  unfold rangeOk
  split
  · rename_i first last
    rw [decide_eq_true_eq]
    constructor
    · exact fun h => ⟨first, last, rfl, by omega⟩
    · rintro ⟨_, _, hd, h⟩
      cases hd
      omega
  · rename_i hd
    simp only [Bool.false_eq_true, false_iff]
    exact fun ⟨first, last, h, _⟩ => hd first last h

/-- Settles O57: both parameters pass the check of one inclusive pair. -/
theorem windowCheckMeansItsSize : Obligations.WindowCheckMeansItsSize := by
  refine ⟨fun col row => ?_, by decide⟩
  simp only [windowOk, Bool.and_eq_true, rangeOk_iff]
  constructor
  · rintro ⟨⟨cs, ce, hcol, hc⟩, rs, re, hrow, hr⟩
    exact ⟨cs, ce, rs, re, hcol, hrow, hc, hr⟩
  · rintro ⟨cs, ce, rs, re, hcol, hrow, hc, hr⟩
    exact ⟨⟨cs, ce, hcol, hc⟩, rs, re, hrow, hr⟩

/-! ### INIT_TABLE (R151), its records split at the first OP_SLPOUT one -/

theorem delayed_iff (r : InitRecord) : r.delayed = true ↔ 0 < r.delay := decide_eq_true_iff

/-- R151 (a): `r1` is the first OP_SLPOUT record of the table, and it has a delay. -/
theorem slpoutOk_iff (ops : WireOps) (t : List InitRecord) :
    slpoutOk ops t = true ↔ ∃ before r1 after, t = before ++ r1 :: after ∧ (∀ q ∈ before, q.op ≠ ops.slpout) ∧
      r1.op = ops.slpout ∧ 0 < r1.delay := by
  have hfind : slpoutOk ops t = true ↔ ∃ r1, t.find? (fun r => r.op == ops.slpout) = some r1 ∧ 0 < r1.delay := by
    unfold slpoutOk
    split <;> simp [delayed_iff, *]
  rw [hfind]
  constructor
  · rintro ⟨r1, hr, hd⟩
    obtain ⟨hop, before, after, rfl, hb⟩ := List.find?_eq_some_iff_append.mp hr
    exact ⟨before, r1, after, rfl, by simpa using hb, by simpa using hop, hd⟩
  · rintro ⟨before, r1, after, rfl, hb, hop, hd⟩
    exact ⟨r1, List.find?_eq_some_iff_append.mpr ⟨by simpa using hop, before, after, rfl, by simpa using hb⟩, hd⟩

/-- The first entry that meets `p` comes after entry `x` exactly when `x` and the entries before it do not meet `p`. -/
theorem length_lt_findIdx_iff {α : Type} (p : α → Bool) (l m : List α) (x : α) :
    l.length < (l ++ x :: m).findIdx p ↔ (∀ a ∈ l, p a = false) ∧ p x = false := by
  rw [List.findIdx_append]
  split
  · rename_i h
    obtain ⟨a, ha, hpa⟩ := List.findIdx_lt_length.mp h
    exact ⟨fun hlt => absurd h (by omega), fun ⟨hl, _⟩ => absurd hpa (by simp [hl a ha])⟩
  · rename_i h
    have hl : ∀ a ∈ l, p a = false := by simpa [List.findIdx_lt_length] using h
    cases hx : p x with
    | true => simp [List.findIdx_cons, hx]
    | false => simpa [List.findIdx_cons, hx] using hl

/-- Before `x` no entry meets `p`, and `x` does, so `x` is the first. -/
theorem findIdx_eq_length {α : Type} (p : α → Bool) {l : List α} (m : List α) {x : α} (hl : ∀ a ∈ l, p a = false)
    (hx : p x = true) : (l ++ x :: m).findIdx p = l.length := by
  rw [List.findIdx_append, List.findIdx_eq_length_of_false hl]
  simp [List.findIdx_cons, hx]

/-- R151 (b) at the first OP_SLPOUT record `r1`: no OP_DISPON record stands up to it, and one with a delay comes after it. -/
theorem disponOk_iff {ops : WireOps} {before after : List InitRecord} {r1 : InitRecord}
    (hb : ∀ q ∈ before, q.op ≠ ops.slpout) (h1 : r1.op = ops.slpout) :
    disponOk ops (before ++ r1 :: after) = true ↔ (∀ q ∈ before, q.op ≠ ops.dispon) ∧ r1.op ≠ ops.dispon ∧
      ∃ r2 ∈ after, r2.op = ops.dispon ∧ 0 < r2.delay := by
  have hfirst : (before ++ r1 :: after).findIdx (fun r => r.op == ops.slpout) = before.length :=
    findIdx_eq_length _ after (by simpa using hb) (by simpa using h1)
  simp only [disponOk, Bool.and_eq_true, decide_eq_true_eq, hfirst, length_lt_findIdx_iff, List.any_eq_true, beq_iff_eq,
    beq_eq_false_iff_ne, delayed_iff, List.mem_append, List.mem_cons]
  constructor
  · rintro ⟨⟨r2, hmem, hop, hd⟩, hbefore, hr1⟩
    refine ⟨hbefore, hr1, r2, ?_, hop, hd⟩
    rcases hmem with hmem | rfl | hmem
    · exact absurd hop (hbefore r2 hmem)
    · exact absurd hop hr1
    · exact hmem
  · rintro ⟨hbefore, hr1, r2, hmem, hop, hd⟩
    exact ⟨⟨r2, .inr (.inr hmem), hop, hd⟩, hbefore, hr1⟩

/-- R151 (c) with two delayed records known: two delayed records in all are exactly those two. -/
theorem delaysOk_iff {before after : List InitRecord} {r1 r2 : InitRecord} (h1 : 0 < r1.delay) (hm : r2 ∈ after)
    (h2 : 0 < r2.delay) :
    delaysOk (before ++ r1 :: after) = true ↔
      (before ++ r1 :: after).filter (fun r => decide (0 < r.delay)) = [r1, r2] := by
  rw [delaysOk, decide_eq_true_eq]
  refine ⟨fun hlen => ?_, fun h => congrArg List.length h⟩
  have hf : (before ++ r1 :: after).filter InitRecord.delayed =
      before.filter InitRecord.delayed ++ r1 :: after.filter InitRecord.delayed := by
    simp [List.filter_append, delayed_iff, h1]
  have hr2 : r2 ∈ after.filter InitRecord.delayed := List.mem_filter.mpr ⟨hm, (delayed_iff r2).mpr h2⟩
  have hpos := List.length_pos_of_mem hr2
  rw [hf, List.length_append, List.length_cons] at hlen
  have hbefore : before.filter InitRecord.delayed = [] := List.length_eq_zero_iff.mp (by omega)
  obtain ⟨r, hafter⟩ := List.length_eq_one_iff.mp (show (after.filter InitRecord.delayed).length = 1 by omega)
  obtain rfl : r2 = r := by simpa [hafter] using hr2
  exact hf.trans (by rw [hbefore, hafter]; rfl)

/-- R151 (d). -/
theorem formatOk_iff (ops : WireOps) (t : List InitRecord) :
    formatOk ops t = true ↔ (∃ q ∈ t, q.op = ops.madctl) ∧ ∃ q ∈ t, q.op = ops.dfs := by
  simp only [formatOk, Bool.and_eq_true, List.any_eq_true, beq_iff_eq]

/-- Settles O56: (a) splits the table at its first OP_SLPOUT record, and (b) and (c) are read at that split. -/
theorem initTableCheckMeansItsConstraints : Obligations.InitTableCheckMeansItsConstraints := by
  intro ops t
  rw [initTableOk, Bool.and_eq_true, Bool.and_eq_true, Bool.and_eq_true, formatOk_iff]
  refine and_congr_left fun _ => ?_
  constructor
  · rintro ⟨⟨ha, hb⟩, hc⟩
    obtain ⟨before, r1, after, rfl, hbefore, h1, hd1⟩ := (slpoutOk_iff ops t).mp ha
    obtain ⟨hdispon, hr1, r2, hm, h2, hd2⟩ := (disponOk_iff hbefore h1).mp hb
    exact ⟨before, r1, after, r2, rfl, fun q hq => ⟨hbefore q hq, hdispon q hq⟩, h1, hr1, hd1, hm, h2, hd2,
      (delaysOk_iff hd1 hm hd2).mp hc⟩
  · rintro ⟨before, r1, after, r2, rfl, hbefore, h1, hr1, hd1, hm, h2, hd2, hf⟩
    have hslpout : ∀ q ∈ before, q.op ≠ ops.slpout := fun q hq => (hbefore q hq).1
    have hdispon : ∀ q ∈ before, q.op ≠ ops.dispon := fun q hq => (hbefore q hq).2
    exact ⟨⟨(slpoutOk_iff ops _).mpr ⟨before, r1, after, rfl, hslpout, h1, hd1⟩,
      (disponOk_iff hslpout h1).mpr ⟨hdispon, hr1, r2, hm, h2, hd2⟩⟩, (delaysOk_iff hd1 hm hd2).mpr hf⟩

end Sys2Proof.Machine
end

section
/-! PROOFS. Scope: the three refusals of a command word (O10, O34, O35). -/

namespace Sys2Proof.Machine

/-! ### An illegal word in any protocol state (R201) -/

/-- An illegal word on the port of an idle block is taken and refused, with the writes of O11. -/
theorem act_of_illegal {s : State} {w : Word} {rest : List Word} {why : Illegal} (hs : s.seq = .idle)
    (hst : s.stream = w :: rest) (hd : decode w = .illegal why) :
    act s = .next { s with stream := rest, errIllegal := true, lastCause := some .illegalCommand, errword := w } := by
  have htaken : act s = accept w { s with stream := rest } := by simp only [act, hs, hst]
  rw [htaken, (illegalWordsAreThese w).2 { s with stream := rest } ⟨why, hd⟩]

/-- Settles O10: with nothing happening outside, the step is the block's own. -/
theorem illegalWordIsRefused : Obligations.IllegalWordIsRefused := by
  intro s w rest why hc hs hst hscript hd
  have hquiet : runStep s = act s := by simp only [runStep, hscript]
  rw [step_of_accepted hc, hquiet, act_of_illegal hs hst hd]

/-! ### A protocol command in the wrong state (R202, R203) -/

/-- Settles O34: neither case meets its command's condition of acceptance. -/
theorem sequenceViolationsAreRefused : Obligations.SequenceViolationsAreRefused := by
  refine ⟨fun s hs hp => exec_of_effect hs (.resetRefused hp), fun s hs hcase => ?_⟩
  have hunmet : ¬(s.pstate = .reset ∧ s.pulsed = true) := by
    rintro ⟨hp, hq⟩
    rcases hcase with hne | hno
    · exact hne hp
    · exact Bool.noConfusion (hno.symm.trans hq)
  exact exec_of_effect hs (.initRefused hunmet)

/-- Settles O35. -/
theorem refreshBeforeReadyIsRefused : Obligations.RefreshBeforeReadyIsRefused :=
  fun _ hs hp => exec_of_effect hs (.refreshRefused hp)

end Sys2Proof.Machine
end

section
/-! PROOFS. Scope: the shortened hold and the block power-on reset (O30, O48). -/

namespace Sys2Proof.Machine

/-! ### A shortened hold (R251, U12) -/

theorem outside_shortHold_of_wait {s : State} {ms : Nat} (h : s.request = some (.wait ms)) :
    outside .shortHold s = .refused .holdShortened := by
  simp only [outside, h]

/-- Settles O30: the event leaves the script, which the requested primitive does not depend on, and is then refused. -/
theorem shortenedHoldIsRefused : Obligations.ShortenedHoldIsRefused := by
  intro s later ms hc hs hr
  have hwait : ({ s with script := later } : State).request = some (.wait ms) := hr
  have hevent : runStep s = outside .shortHold { s with script := later } := by simp only [runStep, hs]
  rw [step_of_accepted hc, hevent, outside_shortHold_of_wait hwait]

/-! ### Block power-on reset (R35, R240, R241) -/

@[simp] theorem powerOnReset_busy (s : State) : (powerOnReset s).busy = false := rfl

/-- An idle block in PSTATE RESET without a pulse and without a refusal shows STATUS 0 (R26). -/
@[simp] theorem powerOnReset_status (s : State) : (powerOnReset s).status = 0 := by
  simp [State.status, causeCode, PState.code]

/-- With no byte written since, FB reads as the content drawn at the new power-on (log 3). -/
@[simp] theorem powerOnReset_fbByte (s : State) (a : Nat) :
    (powerOnReset s).fbByte a = Config.powerOnByte (s.powerOns + 1) a := by
  simp [State.fbByte, State.unwrittenByte, Memory.lookup]

/-- Settles O48: the reset takes the whole step, and each value is that of its field after `powerOnReset`. -/
theorem powerOnResetRestoresTheResetValues : Obligations.PowerOnResetRestoresTheResetValues := by
  intro s later hc hs
  refine ⟨powerOnReset { s with script := later }, step_of_powerOn hc hs, ?_⟩
  simp

end Sys2Proof.Machine
end
